-- ==== Sys2Proof/Word.lean ====
section
/-! DEFINITION. The value types of 00_scope.md section 5 that are bits: bytes of the stream, 16-bit patterns and
3-bit codes; and texts, which are sequences of ASCII bytes. -/

namespace Sys2Proof

/-- A byte of the stream or of the output: 0 to 255, bits 7 down to 0. -/
abbrev Byte := BitVec 8

/-- A 16-bit pattern, bits 15 down to 0: a displacement, an address or an immediate after widening. -/
abbrev U16 := BitVec 16

/-- A 3-bit code: a register code or an index into the addressing-base table. -/
abbrev Code := BitVec 3

/-- `Text`: a finite sequence of ASCII characters, held as the bytes that are written. -/
abbrev Text := List Byte

end Sys2Proof
end

