-- ==== Sys2Proof/Config.lean ====
section
/-! DEFINITION. What the spec leaves OPEN (rule R8, 92_eei_decisions.md D2): the policy after an unrecognized byte
and the line a placeholder writes. -/

namespace Sys2Proof

/-- `UNRECOGNIZED_POLICY` (R8, R67): what the sequencer does after an `Unrecognized` result. It is a launch parameter,
constant during a pass (R155), so the State holds it and every statement is about all three values. -/
inductive Policy where
  | halt
  | skipOne
  | placeholder
  deriving DecidableEq, Repr

/-- The spec's default policy (R8: "the spec's default is `HALT`"). -/
def Config.defaultPolicy : Policy := .halt

/-- FREE VALUE behind `PLACEHOLDER_LINE` (R8, D2, 93_implementation_defined.md U4): OPEN, no default, a function of
the unrecognized byte. It has no body, so no proof can see a value of it. DESIGN CHOICE, safe: log entry 3. -/
opaque Config.placeholderRaw : Byte → List Byte

end Sys2Proof
end

