-- ==== Sys2Proof/Machine/State.lean ====
section
/-! DEFINITION. The state as plain data: the input stream SRC, the cursor OFF, the last result RES, the outputs OUT
and RECS, the launch policy and the sequencer's FINAL; the record types of rule R19; the reasons a step can stop. -/

namespace Sys2Proof.Machine

open Sys2Proof

/-- `Width`, the "enumeration {Byte, Word}" (R19). -/
inductive Width where
  | byte
  | word
  deriving DecidableEq, Repr

/-- An operand of a record (R19, 90_conflicts.md C1): the base of a memory operand is mandatory and a direct address
has its own form. A displacement and an immediate are 16-bit patterns, read as signed only when they are rendered. -/
inductive Operand where
  | register (id : Code) (width : Width)
  | memory (base : Code) (disp : Option U16)
  | directAddress (addr : U16)
  | immediate (value : U16) (width : Width)
  deriving DecidableEq, Repr

/-- The mnemonic of a record: "always the text "mov"" (R19). -/
inductive Mnemonic where
  | mov
  deriving DecidableEq, Repr

/-- The decoded-instruction record (R19). `qualified` is the document's
`source_is_immediate_with_width_qualifier`. -/
structure DecodedInstruction where
  mnemonic : Mnemonic
  destination : Operand
  source : Operand
  qualified : Bool
  deriving DecidableEq, Repr

/-- The result of a decode attempt (R17, R137). The reset value `None` of RES is the absence of a result. -/
inductive Result where
  | decoded (record : DecodedInstruction) (start length : Nat)
  | endOfStream (start : Nat)
  | truncatedInstruction (start : Nat) (lead : Byte)
  | unrecognized (start : Nat) (lead : Byte)
  deriving DecidableEq, Repr

/-- The sequencer's sticky final status FINAL (R67). -/
inductive Final where
  | running
  | doneOk
  | doneTruncated (start : Nat) (lead : Byte)
  | doneUnrecognized (start : Nat) (lead : Byte)
  deriving DecidableEq, Repr

/-- The only memory of the block, the byte sequence SRC (R12, R23): (offset, byte) pairs. The canonical form is
`Memory.wf`. An offset that is not listed holds no byte: it is the end of the stream (log entry 8). -/
abbrev Memory := List Host.Cell

/-- The offsets of `m` are `k`, `k + 1`, ... in this order, without a gap. -/
def Memory.denseFrom : Nat → Memory → Bool
  | _, [] => true
  | k, (a, _) :: m => decide (a = k) && Memory.denseFrom (k + 1) m

/-- The canonical form of SRC: the offsets listed are 0 to LEN-1, strictly rising and each with its byte (R12: "every
offset below `LEN` has a byte"). -/
def Memory.wf (m : Memory) : Bool := Memory.denseFrom 0 m

/-- `LEN`, the length of SRC in bytes (R8, R12). -/
def Memory.len (m : Memory) : Nat := m.length

/-- The whole state (R9 and, for FINAL, R67). SRC, LEN and the policy are launch inputs, which no step writes. -/
structure State where
  /-- SRC, with LEN its length (R12). -/
  src : Memory
  /-- UNRECOGNIZED_POLICY (R8, R155): log entry 9. -/
  policy : Policy
  /-- OFF, the cursor, an unbounded natural number (R10, D7): log entry 7. -/
  off : Nat
  /-- RES, the result of the last decode attempt; `none` before the first (R17). -/
  res : Option Result
  /-- OUT, the append-only output text (R18). -/
  out : Text
  /-- RECS, the append-only record stream (R18). -/
  recs : List DecodedInstruction
  /-- FINAL, the sequencer's status (R67, D13): log entry 15. -/
  final : Final
  deriving DecidableEq, Repr

/-- The state at reset (R22, R153): OFF = 0, RES = None, OUT and RECS empty, FINAL = Running. SRC and LEN "hold what
the host supplied": this machine with nothing supplied yet, the empty stream, which R30 calls legal. DESIGN CHOICE,
unsafe: log entry 5. -/
def State.reset : State where
  src := []
  policy := Config.defaultPolicy
  off := 0
  res := none
  out := []
  recs := []
  final := .running

/-- Reasons a step stops with a fault. -/
inductive Fault where
  /-- Raised by `step` when FINAL is not Running: "no further step exists once `FINAL != Running`"
  (93_implementation_defined.md U12, R158). Safe: the machine does nothing there (log entry 20). -/
  | passEnded
  deriving DecidableEq, Repr

/-- Reasons a step is refused. -/
inductive Refusal where
  /-- Raised by an arm of `exec` whose instruction has no meaning yet; no arm of this model raises it. Safe. -/
  | notModelled (mnemonic : String)
  deriving DecidableEq, Repr

end Sys2Proof.Machine
end

