-- ==== Sys2Proof/Machine/Bits.lean ====
section
/-! DEFINITION. The Field Extractor (R38 to R43) and the arithmetic of the reader (R88): pure total functions of
bytes. -/

namespace Sys2Proof.Machine

open Sys2Proof

/-- `d = lead[1]` of shape RM_REG (R38). -/
def dBit (lead : Byte) : Bool := lead.getLsbD 1

/-- `w = lead[0]` of every shape but IMM_REG (R38, R42). -/
def wBit (lead : Byte) : Bool := lead.getLsbD 0

/-- `w = lead[3]` of shape IMM_REG (R41). -/
def wBitImmReg (lead : Byte) : Bool := lead.getLsbD 3

/-- `reg = lead[2:0]` of shape IMM_REG (R41). -/
def leadReg (lead : Byte) : Code := lead.extractLsb' 0 3

/-- `mod = m[7:6]` (R39). -/
def modOf (m : Byte) : BitVec 2 := m.extractLsb' 6 2

/-- `reg = m[5:3]` (R39). -/
def regOf (m : Byte) : Code := m.extractLsb' 3 3

/-- `rm = m[2:0]` (R39). -/
def rmOf (m : Byte) : Code := m.extractLsb' 0 3

/-- `width_of(w)` (R40). -/
def widthOf (w : Bool) : Width := if w then .word else .byte

/-- `le16(lo, hi)`: the byte at the lower offset is the low-order byte (R25). -/
def le16 (lo hi : Byte) : U16 := hi ++ lo

/-- `sext_16`: sign extension of a byte to 16 bits (R81, R84, R88). -/
def sext16 (b : Byte) : U16 := b.signExtend 16

/-- `signed16`: the signed reading of a 16-bit pattern (R88). -/
def signed16 (u : U16) : Int := u.toInt

/-- `disp_len(mod, rm)`: how many displacement or address bytes follow the ModRM byte (R50). -/
def dispLen (mod : BitVec 2) (rm : Code) : Nat :=
  if mod = 0 then (if rm = 6 then 2 else 0)
  else if mod = 1 then 1
  else if mod = 2 then 2
  else 0

/-- `imm_len(w) = 1 + w` (R50). -/
def immLen (w : Bool) : Nat := if w then 2 else 1

end Sys2Proof.Machine
end

