-- ==== Sys2Proof/Syntax.lean ====
section
/-! DEFINITION. The instructions: one constructor for each of the 73 rows of spec/opcode_table.json, in the table's
order. A row is named by its leading byte and, for the ModRM shapes, by the case of `mod` and `rm`. Fields carry what
the encoding carries: 3-bit codes, displacement and immediate bytes, 16-bit values put together low byte first. -/

namespace Sys2Proof

inductive Instr where
  /-- Opcode `88` (R90, R89), `mod=00`, `rm` 0 to 3 (R71). -/
  | mov88BaseLow (reg rm : Code)
  /-- Opcode `88` (R90, R89), `mod=00`, `rm` 4 or 5 (R71). -/
  | mov88BaseMid (reg rm : Code)
  /-- Opcode `88` (R90, R89), `mod=00`, `rm=7` (R71). -/
  | mov88BaseBx (reg : Code)
  /-- Opcode `88` (R90, R89), `mod=00`, `rm=6`: direct address (R72). -/
  | mov88Direct (reg : Code) (addr : U16)
  /-- Opcode `88` (R90, R89), `mod=01`: 8-bit displacement (R73). -/
  | mov88Disp8 (reg rm : Code) (disp : Byte)
  /-- Opcode `88` (R90, R89), `mod=10`: 16-bit displacement (R74). -/
  | mov88Disp16 (reg rm : Code) (disp : U16)
  /-- Opcode `88` (R90, R89), `mod=11`: register (R70). -/
  | mov88Reg (reg rm : Code)
  /-- Opcode `89` (R91, R89), `mod=00`, `rm` 0 to 3 (R71). -/
  | mov89BaseLow (reg rm : Code)
  /-- Opcode `89` (R91, R89), `mod=00`, `rm` 4 or 5 (R71). -/
  | mov89BaseMid (reg rm : Code)
  /-- Opcode `89` (R91, R89), `mod=00`, `rm=7` (R71). -/
  | mov89BaseBx (reg : Code)
  /-- Opcode `89` (R91, R89), `mod=00`, `rm=6`: direct address (R72). -/
  | mov89Direct (reg : Code) (addr : U16)
  /-- Opcode `89` (R91, R89), `mod=01`: 8-bit displacement (R73). -/
  | mov89Disp8 (reg rm : Code) (disp : Byte)
  /-- Opcode `89` (R91, R89), `mod=10`: 16-bit displacement (R74). -/
  | mov89Disp16 (reg rm : Code) (disp : U16)
  /-- Opcode `89` (R91, R89), `mod=11`: register (R70). -/
  | mov89Reg (reg rm : Code)
  /-- Opcode `8A` (R92, R89), `mod=00`, `rm` 0 to 3 (R71). -/
  | mov8ABaseLow (reg rm : Code)
  /-- Opcode `8A` (R92, R89), `mod=00`, `rm` 4 or 5 (R71). -/
  | mov8ABaseMid (reg rm : Code)
  /-- Opcode `8A` (R92, R89), `mod=00`, `rm=7` (R71). -/
  | mov8ABaseBx (reg : Code)
  /-- Opcode `8A` (R92, R89), `mod=00`, `rm=6`: direct address (R72). -/
  | mov8ADirect (reg : Code) (addr : U16)
  /-- Opcode `8A` (R92, R89), `mod=01`: 8-bit displacement (R73). -/
  | mov8ADisp8 (reg rm : Code) (disp : Byte)
  /-- Opcode `8A` (R92, R89), `mod=10`: 16-bit displacement (R74). -/
  | mov8ADisp16 (reg rm : Code) (disp : U16)
  /-- Opcode `8A` (R92, R89), `mod=11`: register (R70). -/
  | mov8AReg (reg rm : Code)
  /-- Opcode `8B` (R93, R89), `mod=00`, `rm` 0 to 3 (R71). -/
  | mov8BBaseLow (reg rm : Code)
  /-- Opcode `8B` (R93, R89), `mod=00`, `rm` 4 or 5 (R71). -/
  | mov8BBaseMid (reg rm : Code)
  /-- Opcode `8B` (R93, R89), `mod=00`, `rm=7` (R71). -/
  | mov8BBaseBx (reg : Code)
  /-- Opcode `8B` (R93, R89), `mod=00`, `rm=6`: direct address (R72). -/
  | mov8BDirect (reg : Code) (addr : U16)
  /-- Opcode `8B` (R93, R89), `mod=01`: 8-bit displacement (R73). -/
  | mov8BDisp8 (reg rm : Code) (disp : Byte)
  /-- Opcode `8B` (R93, R89), `mod=10`: 16-bit displacement (R74). -/
  | mov8BDisp16 (reg rm : Code) (disp : U16)
  /-- Opcode `8B` (R93, R89), `mod=11`: register (R70). -/
  | mov8BReg (reg rm : Code)
  /-- Opcode `B0` (R96, R95): `mov al, <imm8>`. -/
  | movB0 (imm : Byte)
  /-- Opcode `B1` (R97, R95): `mov cl, <imm8>`. -/
  | movB1 (imm : Byte)
  /-- Opcode `B2` (R98, R95): `mov dl, <imm8>`. -/
  | movB2 (imm : Byte)
  /-- Opcode `B3` (R99, R95): `mov bl, <imm8>`. -/
  | movB3 (imm : Byte)
  /-- Opcode `B4` (R100, R95): `mov ah, <imm8>`. -/
  | movB4 (imm : Byte)
  /-- Opcode `B5` (R101, R95): `mov ch, <imm8>`. -/
  | movB5 (imm : Byte)
  /-- Opcode `B6` (R102, R95): `mov dh, <imm8>`. -/
  | movB6 (imm : Byte)
  /-- Opcode `B7` (R103, R95): `mov bh, <imm8>`. -/
  | movB7 (imm : Byte)
  /-- Opcode `B8` (R104, R95): `mov ax, <imm16>`. -/
  | movB8 (imm : U16)
  /-- Opcode `B9` (R105, R95): `mov cx, <imm16>`. -/
  | movB9 (imm : U16)
  /-- Opcode `BA` (R106, R95): `mov dx, <imm16>`. -/
  | movBA (imm : U16)
  /-- Opcode `BB` (R107, R95): `mov bx, <imm16>`. -/
  | movBB (imm : U16)
  /-- Opcode `BC` (R108, R95): `mov sp, <imm16>`. -/
  | movBC (imm : U16)
  /-- Opcode `BD` (R109, R95): `mov bp, <imm16>`. -/
  | movBD (imm : U16)
  /-- Opcode `BE` (R110, R95): `mov si, <imm16>`. -/
  | movBE (imm : U16)
  /-- Opcode `BF` (R111, R95): `mov di, <imm16>`. -/
  | movBF (imm : U16)
  /-- Opcode `C6` (R114, R113), `mod=00`, `rm` 0 to 3 (R71); `ign` is the ignored `reg` field (R54). -/
  | movC6BaseLow (ign rm : Code) (imm : Byte)
  /-- Opcode `C6` (R114, R113), `mod=00`, `rm` 4 or 5 (R71); `ign` is the ignored `reg` field (R54). -/
  | movC6BaseMid (ign rm : Code) (imm : Byte)
  /-- Opcode `C6` (R114, R113), `mod=00`, `rm=7` (R71); `ign` is the ignored `reg` field (R54). -/
  | movC6BaseBx (ign : Code) (imm : Byte)
  /-- Opcode `C6` (R114, R113), `mod=00`, `rm=6`: direct address (R72); `ign` is the ignored `reg` field (R54). -/
  | movC6Direct (ign : Code) (addr : U16) (imm : Byte)
  /-- Opcode `C6` (R114, R113), `mod=01`: 8-bit displacement (R73); `ign` is the ignored `reg` field (R54). -/
  | movC6Disp8 (ign rm : Code) (disp imm : Byte)
  /-- Opcode `C6` (R114, R113), `mod=10`: 16-bit displacement (R74); `ign` is the ignored `reg` field (R54). -/
  | movC6Disp16 (ign rm : Code) (disp : U16) (imm : Byte)
  /-- Opcode `C6` (R114, R113), `mod=11`: register (R70); `ign` is the ignored `reg` field (R54). -/
  | movC6Reg (ign rm : Code) (imm : Byte)
  /-- Opcode `C7` (R115, R113), `mod=00`, `rm` 0 to 3 (R71); `ign` is the ignored `reg` field (R54). -/
  | movC7BaseLow (ign rm : Code) (imm : U16)
  /-- Opcode `C7` (R115, R113), `mod=00`, `rm` 4 or 5 (R71); `ign` is the ignored `reg` field (R54). -/
  | movC7BaseMid (ign rm : Code) (imm : U16)
  /-- Opcode `C7` (R115, R113), `mod=00`, `rm=7` (R71); `ign` is the ignored `reg` field (R54). -/
  | movC7BaseBx (ign : Code) (imm : U16)
  /-- Opcode `C7` (R115, R113), `mod=00`, `rm=6`: direct address (R72); `ign` is the ignored `reg` field (R54). -/
  | movC7Direct (ign : Code) (addr imm : U16)
  /-- Opcode `C7` (R115, R113), `mod=01`: 8-bit displacement (R73); `ign` is the ignored `reg` field (R54). -/
  | movC7Disp8 (ign rm : Code) (disp : Byte) (imm : U16)
  /-- Opcode `C7` (R115, R113), `mod=10`: 16-bit displacement (R74); `ign` is the ignored `reg` field (R54). -/
  | movC7Disp16 (ign rm : Code) (disp imm : U16)
  /-- Opcode `C7` (R115, R113), `mod=11`: register (R70); `ign` is the ignored `reg` field (R54). -/
  | movC7Reg (ign rm : Code) (imm : U16)
  /-- Opcode `A0` (R119, R118): `mov al, [<addr>]`. -/
  | movA0 (addr : U16)
  /-- Opcode `A1` (R120, R118): `mov ax, [<addr>]`. -/
  | movA1 (addr : U16)
  /-- Opcode `A2` (R121, R118): `mov [<addr>], al`. -/
  | movA2 (addr : U16)
  /-- Opcode `A3` (R122, R118): `mov [<addr>], ax`. -/
  | movA3 (addr : U16)
  /-- Leading bytes `00` to `7F`, no shape (R55, R140). -/
  | unrecognized00to7F (lead : Byte)
  /-- Leading bytes `80` to `87`, no shape (R55, R140). -/
  | unrecognized80to87 (lead : Byte)
  /-- Leading bytes `8C` to `8F`, no shape (R55, R140). -/
  | unrecognized8Cto8F (lead : Byte)
  /-- Leading bytes `90` to `9F`, no shape (R55, R140). -/
  | unrecognized90to9F (lead : Byte)
  /-- Leading bytes `A4` to `A7`, no shape (R55, R140). -/
  | unrecognizedA4toA7 (lead : Byte)
  /-- Leading bytes `A8` to `AF`, no shape (R55, R140). -/
  | unrecognizedA8toAF (lead : Byte)
  /-- Leading bytes `C0` to `C3`, no shape (R55, R140). -/
  | unrecognizedC0toC3 (lead : Byte)
  /-- Leading bytes `C4` to `C5`, no shape (R55, R140). -/
  | unrecognizedC4toC5 (lead : Byte)
  /-- Leading bytes `C8` to `CF`, no shape (R55, R140). -/
  | unrecognizedC8toCF (lead : Byte)
  /-- Leading bytes `D0` to `DF`, no shape (R55, R140). -/
  | unrecognizedD0toDF (lead : Byte)
  /-- Leading bytes `E0` to `FF`, no shape (R55, R140). -/
  | unrecognizedE0toFF (lead : Byte)
  deriving DecidableEq, Repr

end Sys2Proof
end

