-- ==== Sys2Proof/WellFormed.lean ====
section
/-! DEFINITION. Which terms of `Instr` stand for an encoding: a field keeps to the range its row of the opcode table
gives it (the `r/m` values of a `mod = 00` row, the byte range of an unrecognized row). Every other field may hold any
value of its type (R55: "once the leading byte is recognized, every value of every follow-on byte is accepted"). -/

namespace Sys2Proof

/-- The instruction is well formed. -/
def Instr.wf (i : Instr) : Bool :=
  match i with
  | .mov88BaseLow _ rm => decide (rm ≤ 3)
  | .mov88BaseMid _ rm => decide (rm = 4 ∨ rm = 5)
  | .mov88BaseBx _ => true
  | .mov88Direct _ _ => true
  | .mov88Disp8 _ _ _ => true
  | .mov88Disp16 _ _ _ => true
  | .mov88Reg _ _ => true
  | .mov89BaseLow _ rm => decide (rm ≤ 3)
  | .mov89BaseMid _ rm => decide (rm = 4 ∨ rm = 5)
  | .mov89BaseBx _ => true
  | .mov89Direct _ _ => true
  | .mov89Disp8 _ _ _ => true
  | .mov89Disp16 _ _ _ => true
  | .mov89Reg _ _ => true
  | .mov8ABaseLow _ rm => decide (rm ≤ 3)
  | .mov8ABaseMid _ rm => decide (rm = 4 ∨ rm = 5)
  | .mov8ABaseBx _ => true
  | .mov8ADirect _ _ => true
  | .mov8ADisp8 _ _ _ => true
  | .mov8ADisp16 _ _ _ => true
  | .mov8AReg _ _ => true
  | .mov8BBaseLow _ rm => decide (rm ≤ 3)
  | .mov8BBaseMid _ rm => decide (rm = 4 ∨ rm = 5)
  | .mov8BBaseBx _ => true
  | .mov8BDirect _ _ => true
  | .mov8BDisp8 _ _ _ => true
  | .mov8BDisp16 _ _ _ => true
  | .mov8BReg _ _ => true
  | .movB0 _ => true
  | .movB1 _ => true
  | .movB2 _ => true
  | .movB3 _ => true
  | .movB4 _ => true
  | .movB5 _ => true
  | .movB6 _ => true
  | .movB7 _ => true
  | .movB8 _ => true
  | .movB9 _ => true
  | .movBA _ => true
  | .movBB _ => true
  | .movBC _ => true
  | .movBD _ => true
  | .movBE _ => true
  | .movBF _ => true
  | .movC6BaseLow _ rm _ => decide (rm ≤ 3)
  | .movC6BaseMid _ rm _ => decide (rm = 4 ∨ rm = 5)
  | .movC6BaseBx _ _ => true
  | .movC6Direct _ _ _ => true
  | .movC6Disp8 _ _ _ _ => true
  | .movC6Disp16 _ _ _ _ => true
  | .movC6Reg _ _ _ => true
  | .movC7BaseLow _ rm _ => decide (rm ≤ 3)
  | .movC7BaseMid _ rm _ => decide (rm = 4 ∨ rm = 5)
  | .movC7BaseBx _ _ => true
  | .movC7Direct _ _ _ => true
  | .movC7Disp8 _ _ _ _ => true
  | .movC7Disp16 _ _ _ _ => true
  | .movC7Reg _ _ _ => true
  | .movA0 _ => true
  | .movA1 _ => true
  | .movA2 _ => true
  | .movA3 _ => true
  | .unrecognized00to7F lead => decide (lead ≤ 0x7F)
  | .unrecognized80to87 lead => decide (0x80 ≤ lead ∧ lead ≤ 0x87)
  | .unrecognized8Cto8F lead => decide (0x8C ≤ lead ∧ lead ≤ 0x8F)
  | .unrecognized90to9F lead => decide (0x90 ≤ lead ∧ lead ≤ 0x9F)
  | .unrecognizedA4toA7 lead => decide (0xA4 ≤ lead ∧ lead ≤ 0xA7)
  | .unrecognizedA8toAF lead => decide (0xA8 ≤ lead ∧ lead ≤ 0xAF)
  | .unrecognizedC0toC3 lead => decide (0xC0 ≤ lead ∧ lead ≤ 0xC3)
  | .unrecognizedC4toC5 lead => decide (0xC4 ≤ lead ∧ lead ≤ 0xC5)
  | .unrecognizedC8toCF lead => decide (0xC8 ≤ lead ∧ lead ≤ 0xCF)
  | .unrecognizedD0toDF lead => decide (0xD0 ≤ lead ∧ lead ≤ 0xDF)
  | .unrecognizedE0toFF lead => decide (0xE0 ≤ lead)

end Sys2Proof
end

