-- ==== Sys2Proof/Decode.lean ====
section
/-! DEFINITION. The classifier and the decoder from bytes to instructions, total on any bytes; the encoder, written
from the same formats of 30_encoding.md; and the opcode table as data. -/

namespace Sys2Proof

open Sys2Proof.Machine

/-- The five shapes and `NoShape` (R44, R61). -/
inductive Shape where
  | rmReg
  | immReg
  | immMem
  | memAcc
  | accMem
  | noShape
  deriving DecidableEq, Repr

/-- The operand side of a ModRM instruction: the case of `mod` and `rm` as the opcode table splits it, with the bytes
that follow the ModRM byte (R70 to R74). -/
inductive RmForm where
  | baseLow (rm : Code)
  | baseMid (rm : Code)
  | baseBx
  | direct (addr : U16)
  | disp8 (rm : Code) (disp : Byte)
  | disp16 (rm : Code) (disp : U16)
  | register (rm : Code)
  deriving DecidableEq, Repr

/-- The formats of 30_encoding.md section 4 (R46 to R49, R55), with their fields. -/
inductive Format where
  | rmReg (d w : Bool) (reg : Code) (form : RmForm)
  | immReg8 (reg : Code) (imm : Byte)
  | immReg16 (reg : Code) (imm : U16)
  | immMem8 (ign : Code) (form : RmForm) (imm : Byte)
  | immMem16 (ign : Code) (form : RmForm) (imm : U16)
  | memAcc (w : Bool) (addr : U16)
  | accMem (w : Bool) (addr : U16)
  | noShape (lead : Byte)
  deriving DecidableEq, Repr

/-- What the decoder finds at an instruction boundary: an instruction with the bytes after it, the end of the stream,
or a recognized leading byte whose follow-on bytes ran out. -/
inductive DecodeResult where
  | instr (i : Instr) (rest : List Byte)
  | endOfStream
  | truncated (lead : Byte)
  deriving DecidableEq, Repr

/-- `classify(lead)` (R61). -/
def classify (lead : Byte) : Shape :=
  if lead.extractLsb' 2 6 = 0b100010#6 then .rmReg
  else if lead.extractLsb' 4 4 = 0b1011#4 then .immReg
  else if lead.extractLsb' 1 7 = 0b1100011#7 then .immMem
  else if lead.extractLsb' 1 7 = 0b1010000#7 then .memAcc
  else if lead.extractLsb' 1 7 = 0b1010001#7 then .accMem
  else .noShape

/-- One inline byte, if there is one (R79). -/
def take8 (bs : List Byte) : Option (Byte × List Byte) :=
  match bs with
  | b :: rest => some (b, rest)
  | [] => none

/-- One inline 16-bit value, low byte first, if both bytes are there (R80). -/
def take16 (bs : List Byte) : Option (U16 × List Byte) :=
  match bs with
  | lo :: hi :: rest => some (le16 lo hi, rest)
  | [_] => none
  | [] => none

/-- The operand side for `mod` and `rm`, with its displacement or address bytes (R46, R75). -/
def takeForm (mod : BitVec 2) (rm : Code) (bs : List Byte) : Option (RmForm × List Byte) :=
  if mod = 3 then some (.register rm, bs)
  else if mod = 1 then (take8 bs).map fun p => (.disp8 rm p.1, p.2)
  else if mod = 2 then (take16 bs).map fun p => (.disp16 rm p.1, p.2)
  else if rm = 6 then (take16 bs).map fun p => (.direct p.1, p.2)
  else if rm = 7 then some (.baseBx, bs)
  else if rm ≤ 3 then some (.baseLow rm, bs)
  else some (.baseMid rm, bs)

/-- The format that starts with `lead`, from the bytes after it; nothing where they run out (R46 to R49). -/
def parse (lead : Byte) (bs : List Byte) : Option (Format × List Byte) :=
  match classify lead with
  | .rmReg =>
    (take8 bs).bind fun m =>
    (takeForm (modOf m.1) (rmOf m.1) m.2).map fun f =>
      (.rmReg (dBit lead) (wBit lead) (regOf m.1) f.1, f.2)
  | .immReg =>
    if wBitImmReg lead then (take16 bs).map fun v => (.immReg16 (leadReg lead) v.1, v.2)
    else (take8 bs).map fun v => (.immReg8 (leadReg lead) v.1, v.2)
  | .immMem =>
    (take8 bs).bind fun m =>
    (takeForm (modOf m.1) (rmOf m.1) m.2).bind fun f =>
      if wBit lead then (take16 f.2).map fun v => (.immMem16 (regOf m.1) f.1 v.1, v.2)
      else (take8 f.2).map fun v => (.immMem8 (regOf m.1) f.1 v.1, v.2)
  | .memAcc => (take16 bs).map fun a => (.memAcc (wBit lead) a.1, a.2)
  | .accMem => (take16 bs).map fun a => (.accMem (wBit lead) a.1, a.2)
  | .noShape => some (.noShape lead, bs)

/-- The row of an IMM_REG instruction, by its register code (R44). -/
def ofImmReg8 (reg : Code) (imm : Byte) : Instr :=
  if reg = 0 then .movB0 imm
  else if reg = 1 then .movB1 imm
  else if reg = 2 then .movB2 imm
  else if reg = 3 then .movB3 imm
  else if reg = 4 then .movB4 imm
  else if reg = 5 then .movB5 imm
  else if reg = 6 then .movB6 imm
  else .movB7 imm

/-- The row of an IMM_REG instruction, by its register code (R44). -/
def ofImmReg16 (reg : Code) (imm : U16) : Instr :=
  if reg = 0 then .movB8 imm
  else if reg = 1 then .movB9 imm
  else if reg = 2 then .movBA imm
  else if reg = 3 then .movBB imm
  else if reg = 4 then .movBC imm
  else if reg = 5 then .movBD imm
  else if reg = 6 then .movBE imm
  else .movBF imm

/-- The row of an unrecognized leading byte: the aligned blocks of R55. -/
def ofNoShape (lead : Byte) : Instr :=
  if lead &&& 0x80 = 0x00 then .unrecognized00to7F lead
  else if lead &&& 0xF8 = 0x80 then .unrecognized80to87 lead
  else if lead &&& 0xFC = 0x8C then .unrecognized8Cto8F lead
  else if lead &&& 0xF0 = 0x90 then .unrecognized90to9F lead
  else if lead &&& 0xFC = 0xA4 then .unrecognizedA4toA7 lead
  else if lead &&& 0xF8 = 0xA8 then .unrecognizedA8toAF lead
  else if lead &&& 0xFC = 0xC0 then .unrecognizedC0toC3 lead
  else if lead &&& 0xFE = 0xC4 then .unrecognizedC4toC5 lead
  else if lead &&& 0xF8 = 0xC8 then .unrecognizedC8toCF lead
  else if lead &&& 0xF0 = 0xD0 then .unrecognizedD0toDF lead
  else .unrecognizedE0toFF lead

/-- The row of the opcode table that an instruction of a format stands in. -/
def Instr.ofFormat (f : Format) : Instr :=
  match f with
  | .rmReg false false reg (.baseLow rm) => .mov88BaseLow reg rm
  | .rmReg false false reg (.baseMid rm) => .mov88BaseMid reg rm
  | .rmReg false false reg .baseBx => .mov88BaseBx reg
  | .rmReg false false reg (.direct addr) => .mov88Direct reg addr
  | .rmReg false false reg (.disp8 rm disp) => .mov88Disp8 reg rm disp
  | .rmReg false false reg (.disp16 rm disp) => .mov88Disp16 reg rm disp
  | .rmReg false false reg (.register rm) => .mov88Reg reg rm
  | .rmReg false true reg (.baseLow rm) => .mov89BaseLow reg rm
  | .rmReg false true reg (.baseMid rm) => .mov89BaseMid reg rm
  | .rmReg false true reg .baseBx => .mov89BaseBx reg
  | .rmReg false true reg (.direct addr) => .mov89Direct reg addr
  | .rmReg false true reg (.disp8 rm disp) => .mov89Disp8 reg rm disp
  | .rmReg false true reg (.disp16 rm disp) => .mov89Disp16 reg rm disp
  | .rmReg false true reg (.register rm) => .mov89Reg reg rm
  | .rmReg true false reg (.baseLow rm) => .mov8ABaseLow reg rm
  | .rmReg true false reg (.baseMid rm) => .mov8ABaseMid reg rm
  | .rmReg true false reg .baseBx => .mov8ABaseBx reg
  | .rmReg true false reg (.direct addr) => .mov8ADirect reg addr
  | .rmReg true false reg (.disp8 rm disp) => .mov8ADisp8 reg rm disp
  | .rmReg true false reg (.disp16 rm disp) => .mov8ADisp16 reg rm disp
  | .rmReg true false reg (.register rm) => .mov8AReg reg rm
  | .rmReg true true reg (.baseLow rm) => .mov8BBaseLow reg rm
  | .rmReg true true reg (.baseMid rm) => .mov8BBaseMid reg rm
  | .rmReg true true reg .baseBx => .mov8BBaseBx reg
  | .rmReg true true reg (.direct addr) => .mov8BDirect reg addr
  | .rmReg true true reg (.disp8 rm disp) => .mov8BDisp8 reg rm disp
  | .rmReg true true reg (.disp16 rm disp) => .mov8BDisp16 reg rm disp
  | .rmReg true true reg (.register rm) => .mov8BReg reg rm
  | .immReg8 reg imm => ofImmReg8 reg imm
  | .immReg16 reg imm => ofImmReg16 reg imm
  | .immMem8 ign (.baseLow rm) imm => .movC6BaseLow ign rm imm
  | .immMem8 ign (.baseMid rm) imm => .movC6BaseMid ign rm imm
  | .immMem8 ign .baseBx imm => .movC6BaseBx ign imm
  | .immMem8 ign (.direct addr) imm => .movC6Direct ign addr imm
  | .immMem8 ign (.disp8 rm disp) imm => .movC6Disp8 ign rm disp imm
  | .immMem8 ign (.disp16 rm disp) imm => .movC6Disp16 ign rm disp imm
  | .immMem8 ign (.register rm) imm => .movC6Reg ign rm imm
  | .immMem16 ign (.baseLow rm) imm => .movC7BaseLow ign rm imm
  | .immMem16 ign (.baseMid rm) imm => .movC7BaseMid ign rm imm
  | .immMem16 ign .baseBx imm => .movC7BaseBx ign imm
  | .immMem16 ign (.direct addr) imm => .movC7Direct ign addr imm
  | .immMem16 ign (.disp8 rm disp) imm => .movC7Disp8 ign rm disp imm
  | .immMem16 ign (.disp16 rm disp) imm => .movC7Disp16 ign rm disp imm
  | .immMem16 ign (.register rm) imm => .movC7Reg ign rm imm
  | .memAcc false addr => .movA0 addr
  | .memAcc true addr => .movA1 addr
  | .accMem false addr => .movA2 addr
  | .accMem true addr => .movA3 addr
  | .noShape lead => ofNoShape lead

/-- The format of an instruction: the inverse of `Instr.ofFormat` on well-formed instructions. -/
def Instr.format (i : Instr) : Format :=
  match i with
  | .mov88BaseLow reg rm => .rmReg false false reg (.baseLow rm)
  | .mov88BaseMid reg rm => .rmReg false false reg (.baseMid rm)
  | .mov88BaseBx reg => .rmReg false false reg .baseBx
  | .mov88Direct reg addr => .rmReg false false reg (.direct addr)
  | .mov88Disp8 reg rm disp => .rmReg false false reg (.disp8 rm disp)
  | .mov88Disp16 reg rm disp => .rmReg false false reg (.disp16 rm disp)
  | .mov88Reg reg rm => .rmReg false false reg (.register rm)
  | .mov89BaseLow reg rm => .rmReg false true reg (.baseLow rm)
  | .mov89BaseMid reg rm => .rmReg false true reg (.baseMid rm)
  | .mov89BaseBx reg => .rmReg false true reg .baseBx
  | .mov89Direct reg addr => .rmReg false true reg (.direct addr)
  | .mov89Disp8 reg rm disp => .rmReg false true reg (.disp8 rm disp)
  | .mov89Disp16 reg rm disp => .rmReg false true reg (.disp16 rm disp)
  | .mov89Reg reg rm => .rmReg false true reg (.register rm)
  | .mov8ABaseLow reg rm => .rmReg true false reg (.baseLow rm)
  | .mov8ABaseMid reg rm => .rmReg true false reg (.baseMid rm)
  | .mov8ABaseBx reg => .rmReg true false reg .baseBx
  | .mov8ADirect reg addr => .rmReg true false reg (.direct addr)
  | .mov8ADisp8 reg rm disp => .rmReg true false reg (.disp8 rm disp)
  | .mov8ADisp16 reg rm disp => .rmReg true false reg (.disp16 rm disp)
  | .mov8AReg reg rm => .rmReg true false reg (.register rm)
  | .mov8BBaseLow reg rm => .rmReg true true reg (.baseLow rm)
  | .mov8BBaseMid reg rm => .rmReg true true reg (.baseMid rm)
  | .mov8BBaseBx reg => .rmReg true true reg .baseBx
  | .mov8BDirect reg addr => .rmReg true true reg (.direct addr)
  | .mov8BDisp8 reg rm disp => .rmReg true true reg (.disp8 rm disp)
  | .mov8BDisp16 reg rm disp => .rmReg true true reg (.disp16 rm disp)
  | .mov8BReg reg rm => .rmReg true true reg (.register rm)
  | .movB0 imm => .immReg8 0 imm
  | .movB1 imm => .immReg8 1 imm
  | .movB2 imm => .immReg8 2 imm
  | .movB3 imm => .immReg8 3 imm
  | .movB4 imm => .immReg8 4 imm
  | .movB5 imm => .immReg8 5 imm
  | .movB6 imm => .immReg8 6 imm
  | .movB7 imm => .immReg8 7 imm
  | .movB8 imm => .immReg16 0 imm
  | .movB9 imm => .immReg16 1 imm
  | .movBA imm => .immReg16 2 imm
  | .movBB imm => .immReg16 3 imm
  | .movBC imm => .immReg16 4 imm
  | .movBD imm => .immReg16 5 imm
  | .movBE imm => .immReg16 6 imm
  | .movBF imm => .immReg16 7 imm
  | .movC6BaseLow ign rm imm => .immMem8 ign (.baseLow rm) imm
  | .movC6BaseMid ign rm imm => .immMem8 ign (.baseMid rm) imm
  | .movC6BaseBx ign imm => .immMem8 ign .baseBx imm
  | .movC6Direct ign addr imm => .immMem8 ign (.direct addr) imm
  | .movC6Disp8 ign rm disp imm => .immMem8 ign (.disp8 rm disp) imm
  | .movC6Disp16 ign rm disp imm => .immMem8 ign (.disp16 rm disp) imm
  | .movC6Reg ign rm imm => .immMem8 ign (.register rm) imm
  | .movC7BaseLow ign rm imm => .immMem16 ign (.baseLow rm) imm
  | .movC7BaseMid ign rm imm => .immMem16 ign (.baseMid rm) imm
  | .movC7BaseBx ign imm => .immMem16 ign .baseBx imm
  | .movC7Direct ign addr imm => .immMem16 ign (.direct addr) imm
  | .movC7Disp8 ign rm disp imm => .immMem16 ign (.disp8 rm disp) imm
  | .movC7Disp16 ign rm disp imm => .immMem16 ign (.disp16 rm disp) imm
  | .movC7Reg ign rm imm => .immMem16 ign (.register rm) imm
  | .movA0 addr => .memAcc false addr
  | .movA1 addr => .memAcc true addr
  | .movA2 addr => .accMem false addr
  | .movA3 addr => .accMem true addr
  | .unrecognized00to7F lead => .noShape lead
  | .unrecognized80to87 lead => .noShape lead
  | .unrecognized8Cto8F lead => .noShape lead
  | .unrecognized90to9F lead => .noShape lead
  | .unrecognizedA4toA7 lead => .noShape lead
  | .unrecognizedA8toAF lead => .noShape lead
  | .unrecognizedC0toC3 lead => .noShape lead
  | .unrecognizedC4toC5 lead => .noShape lead
  | .unrecognizedC8toCF lead => .noShape lead
  | .unrecognizedD0toDF lead => .noShape lead
  | .unrecognizedE0toFF lead => .noShape lead

/-- The decoder: what stands at the head of any byte sequence (R37, R63). -/
def decode (bs : List Byte) : DecodeResult :=
  match bs with
  | [] => .endOfStream
  | lead :: rest =>
    match parse lead rest with
    | some (f, rest') => .instr (Instr.ofFormat f) rest'
    | none => .truncated lead

/-- A 16-bit value as the stream holds it, low byte first (R25). -/
def bytes16 (v : U16) : List Byte := [v.extractLsb' 0 8, v.extractLsb' 8 8]

/-- A ModRM byte from its fields (R39). -/
def modRm (mod : BitVec 2) (reg rm : Code) : Byte := mod ++ reg ++ rm

/-- The ModRM byte and the displacement or address bytes of an operand side (R46). -/
def RmForm.bytes (reg : Code) (f : RmForm) : List Byte :=
  match f with
  | .baseLow rm => [modRm 0 reg rm]
  | .baseMid rm => [modRm 0 reg rm]
  | .baseBx => [modRm 0 reg 7]
  | .direct addr => modRm 0 reg 6 :: bytes16 addr
  | .disp8 rm disp => [modRm 1 reg rm, disp]
  | .disp16 rm disp => modRm 2 reg rm :: bytes16 disp
  | .register rm => [modRm 3 reg rm]

/-- The bytes of a format (R38, R41, R42, R46 to R49). -/
def Format.bytes (f : Format) : List Byte :=
  match f with
  | .rmReg d w reg form => (0b100010#6 ++ BitVec.ofBool d ++ BitVec.ofBool w) :: form.bytes reg
  | .immReg8 reg imm => [0b1011#4 ++ BitVec.ofBool false ++ reg, imm]
  | .immReg16 reg imm => (0b1011#4 ++ BitVec.ofBool true ++ reg) :: bytes16 imm
  | .immMem8 ign form imm => (0b1100011#7 ++ BitVec.ofBool false) :: (form.bytes ign ++ [imm])
  | .immMem16 ign form imm => (0b1100011#7 ++ BitVec.ofBool true) :: (form.bytes ign ++ bytes16 imm)
  | .memAcc w addr => (0b1010000#7 ++ BitVec.ofBool w) :: bytes16 addr
  | .accMem w addr => (0b1010001#7 ++ BitVec.ofBool w) :: bytes16 addr
  | .noShape lead => [lead]

/-- The words of a well-formed instruction. The block itself has no encoder (R7): this one states what the decoder
reads. -/
def encode (i : Instr) : List Byte := i.format.bytes

/-- The low `8 * n` bits of `w` as `n` bytes, the most significant first. -/
def bytesOfNumber : Nat → Nat → List Byte
  | 0, _ => []
  | n + 1, w => BitVec.ofNat 8 (w / 256 ^ n) :: bytesOfNumber n w

/-- The bytes of an instruction whose bits are `w`, numbered as spec/opcode_table.json numbers them: the table reads
its first two bytes as the 16-bit value `byte0 * 256 + byte1` (30_encoding.md section 8). Bytes of zeros follow, up to
the longest instruction. DEDUCED: log entry 2. -/
def tableBytes (nbits w : Nat) : List Byte :=
  bytesOfNumber (nbits / 8) w ++ List.replicate (6 - nbits / 8) 0

/-- The instruction the decoder reads from a word of the opcode table. -/
def decodeTableWord (nbits w : Nat) : Option Instr :=
  match decode (tableBytes nbits w) with
  | .instr i _ => some i
  | .endOfStream => none
  | .truncated _ => none

/-- A row of the opcode table: `mask` and `value` over `byte0 * 256 + byte1`, and the length in bytes. -/
structure Row where
  mask : BitVec 16
  value : BitVec 16
  length : Nat
  deriving DecidableEq, Repr

def rowsRmReg : List Row :=
  [⟨0xFFC4, 0x8800, 2⟩, ⟨0xFFC6, 0x8804, 2⟩, ⟨0xFFC7, 0x8807, 2⟩, ⟨0xFFC7, 0x8806, 4⟩, ⟨0xFFC0, 0x8840, 3⟩, ⟨0xFFC0, 0x8880, 4⟩, ⟨0xFFC0, 0x88C0, 2⟩] ++
  [⟨0xFFC4, 0x8900, 2⟩, ⟨0xFFC6, 0x8904, 2⟩, ⟨0xFFC7, 0x8907, 2⟩, ⟨0xFFC7, 0x8906, 4⟩, ⟨0xFFC0, 0x8940, 3⟩, ⟨0xFFC0, 0x8980, 4⟩, ⟨0xFFC0, 0x89C0, 2⟩] ++
  [⟨0xFFC4, 0x8A00, 2⟩, ⟨0xFFC6, 0x8A04, 2⟩, ⟨0xFFC7, 0x8A07, 2⟩, ⟨0xFFC7, 0x8A06, 4⟩, ⟨0xFFC0, 0x8A40, 3⟩, ⟨0xFFC0, 0x8A80, 4⟩, ⟨0xFFC0, 0x8AC0, 2⟩] ++
  [⟨0xFFC4, 0x8B00, 2⟩, ⟨0xFFC6, 0x8B04, 2⟩, ⟨0xFFC7, 0x8B07, 2⟩, ⟨0xFFC7, 0x8B06, 4⟩, ⟨0xFFC0, 0x8B40, 3⟩, ⟨0xFFC0, 0x8B80, 4⟩, ⟨0xFFC0, 0x8BC0, 2⟩]

def rowsImmReg : List Row :=
  [⟨0xFF00, 0xB000, 2⟩, ⟨0xFF00, 0xB100, 2⟩, ⟨0xFF00, 0xB200, 2⟩, ⟨0xFF00, 0xB300, 2⟩, ⟨0xFF00, 0xB400, 2⟩, ⟨0xFF00, 0xB500, 2⟩, ⟨0xFF00, 0xB600, 2⟩] ++
  [⟨0xFF00, 0xB700, 2⟩, ⟨0xFF00, 0xB800, 3⟩, ⟨0xFF00, 0xB900, 3⟩, ⟨0xFF00, 0xBA00, 3⟩, ⟨0xFF00, 0xBB00, 3⟩, ⟨0xFF00, 0xBC00, 3⟩, ⟨0xFF00, 0xBD00, 3⟩] ++
  [⟨0xFF00, 0xBE00, 3⟩, ⟨0xFF00, 0xBF00, 3⟩]

def rowsImmMem : List Row :=
  [⟨0xFFC4, 0xC600, 3⟩, ⟨0xFFC6, 0xC604, 3⟩, ⟨0xFFC7, 0xC607, 3⟩, ⟨0xFFC7, 0xC606, 5⟩, ⟨0xFFC0, 0xC640, 4⟩, ⟨0xFFC0, 0xC680, 5⟩, ⟨0xFFC0, 0xC6C0, 3⟩] ++
  [⟨0xFFC4, 0xC700, 4⟩, ⟨0xFFC6, 0xC704, 4⟩, ⟨0xFFC7, 0xC707, 4⟩, ⟨0xFFC7, 0xC706, 6⟩, ⟨0xFFC0, 0xC740, 5⟩, ⟨0xFFC0, 0xC780, 6⟩, ⟨0xFFC0, 0xC7C0, 4⟩]

def rowsAcc : List Row :=
  [⟨0xFF00, 0xA000, 3⟩, ⟨0xFF00, 0xA100, 3⟩, ⟨0xFF00, 0xA200, 3⟩, ⟨0xFF00, 0xA300, 3⟩]

def rowsNoShape : List Row :=
  [⟨0x8000, 0x0000, 1⟩, ⟨0xF800, 0x8000, 1⟩, ⟨0xFC00, 0x8C00, 1⟩, ⟨0xF000, 0x9000, 1⟩, ⟨0xFC00, 0xA400, 1⟩, ⟨0xF800, 0xA800, 1⟩, ⟨0xFC00, 0xC000, 1⟩] ++
  [⟨0xFE00, 0xC400, 1⟩, ⟨0xF800, 0xC800, 1⟩, ⟨0xF000, 0xD000, 1⟩, ⟨0xE000, 0xE000, 1⟩]

/-- The 73 rows of spec/opcode_table.json, in its order, which is the order of the constructors of `Instr`. -/
def tableRows : List Row := rowsRmReg ++ rowsImmReg ++ rowsImmMem ++ rowsAcc ++ rowsNoShape

end Sys2Proof
end

