-- ==== Sys2Proof/Machine/Flags.lean ====
section
/-! DEFINITION. The block has "no flags register and no condition codes" (R20). The one flag it computes is the
record's `qualified`. -/

namespace Sys2Proof.Machine

/-- The `qualified` flag of shape IMM_MEM: true exactly when the destination is a memory operand (R113, R116,
R131). -/
def qualifiedFor (destination : Operand) : Bool :=
  match destination with
  | .register _ _ => false
  | .memory _ _ => true
  | .directAddress _ => true
  | .immediate _ _ => false

end Sys2Proof.Machine
end

