-- ==== Sys2Proof/Machine/Operands.lean ====
section
/-! DEFINITION. Every operand form of the block (R53, R70 to R76, R84) and the record of every shape (R89, R95, R113,
R118). The forms are symbolic: nothing is added to a base and nothing is read at an address (R78). -/

namespace Sys2Proof.Machine

open Sys2Proof

/-- `resolve_reg(reg, w)` (R76), and the `rm` operand under `mod = 11` (R70). -/
def regOperand (code : Code) (w : Bool) : Operand := .register code (widthOf w)

/-- The memory operand of `mod = 00`, `rm != 110` (R71). -/
def baseOperand (rm : Code) : Operand := .memory rm none

/-- The direct address of `mod = 00`, `rm = 110` (R72) and of the accumulator shapes (R118). -/
def directOperand (addr : U16) : Operand := .directAddress addr

/-- The memory operand of `mod = 01`: the displacement byte is sign-extended, and zero is kept (R73). -/
def disp8Operand (rm : Code) (disp : Byte) : Operand := .memory rm (some (sext16 disp))

/-- The memory operand of `mod = 10` (R74). -/
def disp16Operand (rm : Code) (disp : U16) : Operand := .memory rm (some disp)

/-- The immediate of one byte, sign-extended (R84 with `w = 0`). -/
def imm8Operand (imm : Byte) : Operand := .immediate (sext16 imm) .byte

/-- The immediate of two bytes (R84 with `w = 1`). -/
def imm16Operand (imm : U16) : Operand := .immediate imm .word

/-- The record of shape RM_REG (R77, R89): `d` says whether `reg` is the destination. -/
def rmRegRecord (d w : Bool) (reg : Code) (m : Operand) : DecodedInstruction :=
  if d then ⟨.mov, regOperand reg w, m, false⟩ else ⟨.mov, m, regOperand reg w, false⟩

/-- The record of shape IMM_REG (R95). -/
def immRegRecord (w : Bool) (reg : Code) (imm : Operand) : DecodedInstruction :=
  ⟨.mov, regOperand reg w, imm, false⟩

/-- The record of shape IMM_MEM (R113). -/
def immMemRecord (m imm : Operand) : DecodedInstruction := ⟨.mov, m, imm, qualifiedFor m⟩

/-- The record of shape MEM_ACC: register code 0 is loaded (R118). -/
def memAccRecord (w : Bool) (addr : U16) : DecodedInstruction :=
  ⟨.mov, regOperand 0 w, directOperand addr, false⟩

/-- The record of shape ACC_MEM: register code 0 is stored (R118). -/
def accMemRecord (w : Bool) (addr : U16) : DecodedInstruction :=
  ⟨.mov, directOperand addr, regOperand 0 w, false⟩

end Sys2Proof.Machine
end

