-- ==== Sys2Proof/Machine/Tables.lean ====
section
/-! DEFINITION. The three lookup tables REG8, REG16 and EABASE (R14 to R16), read-only constants shared by every
component (R157). -/

namespace Sys2Proof.Machine

open Sys2Proof

/-- A literal ASCII text, as the bytes that are written. -/
def ascii (s : String) : Text := s.toList.map fun c => BitVec.ofNat 8 c.toNat

/-- `REG8` (R14). The entries 1 to 6 are the spec's own from general knowledge (93_implementation_defined.md U9):
log entry 4. -/
def reg8 : List Text :=
  [ascii "al", ascii "cl", ascii "dl", ascii "bl", ascii "ah", ascii "ch", ascii "dh", ascii "bh"]

/-- `REG16` (R15). The entries 2, 4, 5 and 6 are the spec's own from general knowledge (U9): log entry 4. -/
def reg16 : List Text :=
  [ascii "ax", ascii "cx", ascii "dx", ascii "bx", ascii "sp", ascii "bp", ascii "si", ascii "di"]

/-- `EABASE` as rendered text (R16, 90_conflicts.md C6). -/
def eaBase : List Text :=
  [ascii "bx + si", ascii "bx + di", ascii "bp + si", ascii "bp + di", ascii "si", ascii "di", ascii "bp", ascii "bx"]

/-- `x[i]` of a table of eight texts at a 3-bit index. -/
def entry (table : List Text) (i : Code) : Text := table.getD i.toNat []

end Sys2Proof.Machine
end

