-- ==== Sys2Proof/Machine/Format.lean ====
section
/-! DEFINITION. The Formatter (R124 to R136): records to text. Every function is pure and total. -/

namespace Sys2Proof.Machine

open Sys2Proof

/-- The newline byte (R134, D8). -/
def newline : Byte := 0x0A

/-- The ASCII digit of a number below ten. -/
def digit (d : Nat) : Byte := BitVec.ofNat 8 (48 + d)

/-- The decimal digits of `n`, at most `fuel` of them, most significant first. -/
def decDigits : Nat → Nat → Text
  | 0, _ => []
  | fuel + 1, n => if n < 10 then [digit n] else decDigits fuel (n / 10) ++ [digit (n % 10)]

/-- `dec(n)`: the minimal decimal numeral (00_scope.md section 5, D9). -/
def dec (n : Nat) : Text := decDigits (n + 1) n

/-- `sdec(s)`: a minus sign directly before the digits of a negative number, no sign otherwise. -/
def sdec (s : Int) : Text := if 0 ≤ s then dec s.toNat else ascii "-" ++ dec (-s).toNat

/-- `fmt_reg(id, width)` (R124). -/
def fmtReg (id : Code) (width : Width) : Text :=
  match width with
  | .byte => entry reg8 id
  | .word => entry reg16 id

/-- `fmt_base(rm)` (R126). -/
def fmtBase (rm : Code) : Text := entry eaBase rm

/-- `fmt_mem(base, disp)` (R127, R128): the sign is chosen by the displacement and its magnitude printed unsigned. -/
def fmtMem (base : Code) (disp : Option U16) : Text :=
  match disp with
  | none => ascii "[" ++ fmtBase base ++ ascii "]"
  | some d =>
    if 0 ≤ signed16 d then ascii "[" ++ fmtBase base ++ ascii " + " ++ dec (signed16 d).toNat ++ ascii "]"
    else ascii "[" ++ fmtBase base ++ ascii " - " ++ dec (-(signed16 d)).toNat ++ ascii "]"

/-- `fmt_direct(addr)`: the address is unsigned (R129, D4). -/
def fmtDirect (addr : U16) : Text := ascii "[" ++ dec addr.toNat ++ ascii "]"

/-- The qualifier and one space (R131). -/
def qualifier (width : Width) : Text :=
  match width with
  | .byte => ascii "byte "
  | .word => ascii "word "

/-- `fmt_imm(value, width, qualified)` (R130). -/
def fmtImm (value : U16) (width : Width) (qualified : Bool) : Text :=
  if qualified then qualifier width ++ sdec (signed16 value) else sdec (signed16 value)

/-- `fmt_operand(op, qualified)` (R132). -/
def fmtOperand (op : Operand) (qualified : Bool) : Text :=
  match op with
  | .register id width => fmtReg id width
  | .memory base disp => fmtMem base disp
  | .directAddress addr => fmtDirect addr
  | .immediate value width => fmtImm value width qualified

/-- The text of a mnemonic (R133). -/
def fmtMnemonic (m : Mnemonic) : Text :=
  match m with
  | .mov => ascii "mov"

/-- `fmt_instr(r)` (R133). -/
def fmtInstr (r : DecodedInstruction) : Text :=
  fmtMnemonic r.mnemonic ++ ascii " " ++ fmtOperand r.destination false ++ ascii ", " ++
    fmtOperand r.source r.qualified

/-- `PLACEHOLDER_LINE(b)`: the free text of Config, kept to "ASCII text (no newline)" (R8). -/
def placeholderLine (lead : Byte) : Text :=
  (Config.placeholderRaw lead).filter fun b => decide (b.toNat < 128) && decide (b ≠ newline)

end Sys2Proof.Machine
end

