-- ==== Sys2Proof/Machine/Ops.lean ====
section
/-! DEFINITION. The named operations on the stream and on the state: reading SRC, `Emit`, the report of a result
(R64), the sequencer's answer to it (R67), and the end of an attempt as ONE shared operation. -/

namespace Sys2Proof.Machine

open Sys2Proof

/-- `SRC[a]`: the byte at offset `a`, or nothing at or past the end (R12, R57). -/
def Memory.read : Memory → Nat → Option Byte
  | [], _ => none
  | (x, b) :: m, a => if x = a then some b else Memory.read m a

/-- At most `fuel` bytes of the stream from offset `a` on, up to the end. -/
def Memory.readRun (m : Memory) : Nat → Nat → List Byte
  | 0, _ => []
  | fuel + 1, a =>
    match Memory.read m a with
    | some b => b :: Memory.readRun m fuel (a + 1)
    | none => []

/-- The bytes of the stream from offset `a` on, in increasing offset order (R26, R33). -/
def Memory.bytesFrom (m : Memory) (a : Nat) : List Byte := Memory.readRun m m.len a

/-- The pairs of a byte sequence whose first byte stands at offset `a`. -/
def Memory.cellsFrom : Nat → List Byte → Memory
  | _, [] => []
  | a, b :: bs => (a, b) :: Memory.cellsFrom (a + 1) bs

/-- SRC for a byte sequence the host supplies (R12, R153). -/
def Memory.ofBytes (bs : List Byte) : Memory := Memory.cellsFrom 0 bs

/-- A sequence with `bs` at offset `a`, what stood there replaced and a gap before it filled with zeros. HOST side
only: no step of the block stores to SRC (R36). -/
def Memory.place (m : Memory) (a : Nat) (bs : List Byte) : Memory :=
  let old := m.map Prod.snd
  Memory.ofBytes (old.take a ++ List.replicate (a - old.length) 0 ++ bs ++ old.drop (a + bs.length))

/-- Reset with the byte source and the policy the host hands over (R22, R153, R155). -/
def State.launch (src : List Byte) (policy : Policy) : State :=
  { State.reset with src := Memory.ofBytes src, policy := policy }

/-- The bytes the cursor has not consumed yet. -/
def State.stream (s : State) : List Byte := s.src.bytesFrom s.off

/-- `OFF <- off`. -/
def State.setOff (off : Nat) (s : State) : State := { s with off := off }

/-- `RES <- r`. -/
def State.setRes (r : Result) (s : State) : State := { s with res := some r }

/-- `RECS <- RECS ++ [record]`. -/
def State.pushRec (record : DecodedInstruction) (s : State) : State := { s with recs := s.recs ++ [record] }

/-- `Emit(t)`: append the text and one newline byte to OUT (R134). -/
def State.emit (t : Text) (s : State) : State := { s with out := s.out ++ t ++ [newline] }

/-- `FINAL <- f`. FINAL is sticky: a status once recorded is never cleared (R67, D13). -/
def State.finish (f : Final) (s : State) : State :=
  match s.final with
  | .running => { s with final := f }
  | .doneOk => s
  | .doneTruncated _ _ => s
  | .doneUnrecognized _ _ => s

/-- FINAL has left Running: the pass is over (R158). -/
def State.ended (s : State) : Bool :=
  match s.final with
  | .running => false
  | .doneOk => true
  | .doneTruncated _ _ => true
  | .doneUnrecognized _ _ => true

/-- The block's own writes at the end of an attempt (R64): RES always, RECS only for a decoded instruction. -/
def State.report (r : Result) (s : State) : State :=
  match r with
  | .decoded record _ _ => (s.pushRec record).setRes r
  | .endOfStream _ => s.setRes r
  | .truncatedInstruction _ _ => s.setRes r
  | .unrecognized _ _ => s.setRes r

/-- The sequencer's answer to a result (R67). -/
def State.settle (r : Result) (s : State) : State :=
  match r with
  | .decoded record _ _ => s.emit (fmtInstr record)
  | .endOfStream _ => s.finish .doneOk
  | .truncatedInstruction start lead => s.finish (.doneTruncated start lead)
  | .unrecognized start lead =>
    match s.policy with
    | .halt => s.finish (.doneUnrecognized start lead)
    | .skipOne => s
    | .placeholder => s.emit (placeholderLine lead)

/-- THE END OF AN ATTEMPT, good or not (R64, R67, R145): the cursor where the reads left it, the result recorded, the
sequencer's answer given. A non-`Decoded` result is the block's only "trap entry": nothing else is saved. -/
def State.conclude (r : Result) (off : Nat) (s : State) : State := ((s.setOff off).report r).settle r

/-- A complete instruction of `length` bytes gave `record` (R64, R65). -/
def State.deliver (record : DecodedInstruction) (length : Nat) (s : State) : State :=
  s.conclude (.decoded record s.off length) (s.off + length)

/-- The cursor is at the end of the stream at an instruction boundary (R138). -/
def State.endAttempt (s : State) : State := s.conclude (.endOfStream s.off) s.off

/-- The stream ended inside the instruction whose leading byte is `lead`: the cursor stands behind the last byte that
could be read, and every partially built value is discarded (R139). -/
def State.truncate (lead : Byte) (s : State) : State :=
  s.conclude (.truncatedInstruction s.off lead) (s.off + s.stream.length)

/-- The leading byte matches no shape: exactly that byte is consumed (R140). -/
def State.reject (lead : Byte) (s : State) : State := s.conclude (.unrecognized s.off lead) (s.off + 1)

/-- The numeric code of a result (R17, R141). -/
def Result.code : Result → Nat
  | .decoded _ _ _ => 0
  | .endOfStream _ => 1
  | .truncatedInstruction _ _ => 2
  | .unrecognized _ _ => 3

/-- Whether the surrounding process exits with status 0, by the reference mapping of R149; nothing while the pass
runs. -/
def Final.exitsZero : Final → Option Bool
  | .running => none
  | .doneOk => some true
  | .doneTruncated _ _ => some false
  | .doneUnrecognized _ _ => some false

end Sys2Proof.Machine
end

