-- ==== Sys2Proof/Machine/Acc.lean ====
section
/-! DEFINITION. MOV between accumulator and direct address: leading bytes A0 to A3 (46_mov_acc.md). The record is R118's; the length is R49's. -/

namespace Sys2Proof.Machine

open Sys2Proof

/-- Opcode `A0` (R119, R118): `mov al, [<addr>]`. -/
def execMovA0 (addr : U16) (s : State) : Host.Outcome State Fault Refusal :=
  .next (s.deliver (memAccRecord false addr) 3)

/-- Opcode `A1` (R120, R118): `mov ax, [<addr>]`. -/
def execMovA1 (addr : U16) (s : State) : Host.Outcome State Fault Refusal :=
  .next (s.deliver (memAccRecord true addr) 3)

/-- Opcode `A2` (R121, R118): `mov [<addr>], al`. -/
def execMovA2 (addr : U16) (s : State) : Host.Outcome State Fault Refusal :=
  .next (s.deliver (accMemRecord false addr) 3)

/-- Opcode `A3` (R122, R118): `mov [<addr>], ax`. -/
def execMovA3 (addr : U16) (s : State) : Host.Outcome State Fault Refusal :=
  .next (s.deliver (accMemRecord true addr) 3)

end Sys2Proof.Machine
end

