-- ==== Sys2Proof/Machine/ImmMem.lean ====
section
/-! DEFINITION. MOV immediate to register/memory: leading bytes C6 and C7 (45_mov_imm_mem.md). The record is R113's, whatever the ignored field holds; the length is R48's. -/

namespace Sys2Proof.Machine

open Sys2Proof

/-- Opcode `C6` (R114, R113), `mod=00`, `rm` 0 to 3 (R71); `ign` is the ignored `reg` field (R54). -/
def execMovC6BaseLow (_ign : Code) (rm : Code) (imm : Byte) (s : State) : Host.Outcome State Fault Refusal :=
  .next (s.deliver (immMemRecord (baseOperand rm) (imm8Operand imm)) 3)

/-- Opcode `C6` (R114, R113), `mod=00`, `rm` 4 or 5 (R71); `ign` is the ignored `reg` field (R54). -/
def execMovC6BaseMid (_ign : Code) (rm : Code) (imm : Byte) (s : State) : Host.Outcome State Fault Refusal :=
  .next (s.deliver (immMemRecord (baseOperand rm) (imm8Operand imm)) 3)

/-- Opcode `C6` (R114, R113), `mod=00`, `rm=7` (R71); `ign` is the ignored `reg` field (R54). -/
def execMovC6BaseBx (_ign : Code) (imm : Byte) (s : State) : Host.Outcome State Fault Refusal :=
  .next (s.deliver (immMemRecord (baseOperand 7) (imm8Operand imm)) 3)

/-- Opcode `C6` (R114, R113), `mod=00`, `rm=6`: direct address (R72); `ign` is the ignored `reg` field (R54). -/
def execMovC6Direct (_ign : Code) (addr : U16) (imm : Byte) (s : State) : Host.Outcome State Fault Refusal :=
  .next (s.deliver (immMemRecord (directOperand addr) (imm8Operand imm)) 5)

/-- Opcode `C6` (R114, R113), `mod=01`: 8-bit displacement (R73); `ign` is the ignored `reg` field (R54). -/
def execMovC6Disp8 (_ign : Code) (rm : Code) (disp : Byte) (imm : Byte) (s : State) : Host.Outcome State Fault Refusal :=
  .next (s.deliver (immMemRecord (disp8Operand rm disp) (imm8Operand imm)) 4)

/-- Opcode `C6` (R114, R113), `mod=10`: 16-bit displacement (R74); `ign` is the ignored `reg` field (R54). -/
def execMovC6Disp16 (_ign : Code) (rm : Code) (disp : U16) (imm : Byte) (s : State) : Host.Outcome State Fault Refusal :=
  .next (s.deliver (immMemRecord (disp16Operand rm disp) (imm8Operand imm)) 5)

/-- Opcode `C6` (R114, R113), `mod=11`: register (R70); `ign` is the ignored `reg` field (R54). -/
def execMovC6Reg (_ign : Code) (rm : Code) (imm : Byte) (s : State) : Host.Outcome State Fault Refusal :=
  .next (s.deliver (immMemRecord (regOperand rm false) (imm8Operand imm)) 3)

/-- Opcode `C7` (R115, R113), `mod=00`, `rm` 0 to 3 (R71); `ign` is the ignored `reg` field (R54). -/
def execMovC7BaseLow (_ign : Code) (rm : Code) (imm : U16) (s : State) : Host.Outcome State Fault Refusal :=
  .next (s.deliver (immMemRecord (baseOperand rm) (imm16Operand imm)) 4)

/-- Opcode `C7` (R115, R113), `mod=00`, `rm` 4 or 5 (R71); `ign` is the ignored `reg` field (R54). -/
def execMovC7BaseMid (_ign : Code) (rm : Code) (imm : U16) (s : State) : Host.Outcome State Fault Refusal :=
  .next (s.deliver (immMemRecord (baseOperand rm) (imm16Operand imm)) 4)

/-- Opcode `C7` (R115, R113), `mod=00`, `rm=7` (R71); `ign` is the ignored `reg` field (R54). -/
def execMovC7BaseBx (_ign : Code) (imm : U16) (s : State) : Host.Outcome State Fault Refusal :=
  .next (s.deliver (immMemRecord (baseOperand 7) (imm16Operand imm)) 4)

/-- Opcode `C7` (R115, R113), `mod=00`, `rm=6`: direct address (R72); `ign` is the ignored `reg` field (R54). -/
def execMovC7Direct (_ign : Code) (addr : U16) (imm : U16) (s : State) : Host.Outcome State Fault Refusal :=
  .next (s.deliver (immMemRecord (directOperand addr) (imm16Operand imm)) 6)

/-- Opcode `C7` (R115, R113), `mod=01`: 8-bit displacement (R73); `ign` is the ignored `reg` field (R54). -/
def execMovC7Disp8 (_ign : Code) (rm : Code) (disp : Byte) (imm : U16) (s : State) : Host.Outcome State Fault Refusal :=
  .next (s.deliver (immMemRecord (disp8Operand rm disp) (imm16Operand imm)) 5)

/-- Opcode `C7` (R115, R113), `mod=10`: 16-bit displacement (R74); `ign` is the ignored `reg` field (R54). -/
def execMovC7Disp16 (_ign : Code) (rm : Code) (disp : U16) (imm : U16) (s : State) : Host.Outcome State Fault Refusal :=
  .next (s.deliver (immMemRecord (disp16Operand rm disp) (imm16Operand imm)) 6)

/-- Opcode `C7` (R115, R113), `mod=11`: register (R70); `ign` is the ignored `reg` field (R54). -/
def execMovC7Reg (_ign : Code) (rm : Code) (imm : U16) (s : State) : Host.Outcome State Fault Refusal :=
  .next (s.deliver (immMemRecord (regOperand rm true) (imm16Operand imm)) 4)

end Sys2Proof.Machine
end

