-- ==== Sys2Proof/Machine/ImmReg.lean ====
section
/-! DEFINITION. MOV immediate to register: leading bytes B0 to BF (44_mov_imm_reg.md). The record is R95's; the length is R47's. -/

namespace Sys2Proof.Machine

open Sys2Proof

/-- Opcode `B0` (R96, R95): `mov al, <imm8>`. -/
def execMovB0 (imm : Byte) (s : State) : Host.Outcome State Fault Refusal :=
  .next (s.deliver (immRegRecord false 0 (imm8Operand imm)) 2)

/-- Opcode `B1` (R97, R95): `mov cl, <imm8>`. -/
def execMovB1 (imm : Byte) (s : State) : Host.Outcome State Fault Refusal :=
  .next (s.deliver (immRegRecord false 1 (imm8Operand imm)) 2)

/-- Opcode `B2` (R98, R95): `mov dl, <imm8>`. -/
def execMovB2 (imm : Byte) (s : State) : Host.Outcome State Fault Refusal :=
  .next (s.deliver (immRegRecord false 2 (imm8Operand imm)) 2)

/-- Opcode `B3` (R99, R95): `mov bl, <imm8>`. -/
def execMovB3 (imm : Byte) (s : State) : Host.Outcome State Fault Refusal :=
  .next (s.deliver (immRegRecord false 3 (imm8Operand imm)) 2)

/-- Opcode `B4` (R100, R95): `mov ah, <imm8>`. -/
def execMovB4 (imm : Byte) (s : State) : Host.Outcome State Fault Refusal :=
  .next (s.deliver (immRegRecord false 4 (imm8Operand imm)) 2)

/-- Opcode `B5` (R101, R95): `mov ch, <imm8>`. -/
def execMovB5 (imm : Byte) (s : State) : Host.Outcome State Fault Refusal :=
  .next (s.deliver (immRegRecord false 5 (imm8Operand imm)) 2)

/-- Opcode `B6` (R102, R95): `mov dh, <imm8>`. -/
def execMovB6 (imm : Byte) (s : State) : Host.Outcome State Fault Refusal :=
  .next (s.deliver (immRegRecord false 6 (imm8Operand imm)) 2)

/-- Opcode `B7` (R103, R95): `mov bh, <imm8>`. -/
def execMovB7 (imm : Byte) (s : State) : Host.Outcome State Fault Refusal :=
  .next (s.deliver (immRegRecord false 7 (imm8Operand imm)) 2)

/-- Opcode `B8` (R104, R95): `mov ax, <imm16>`. -/
def execMovB8 (imm : U16) (s : State) : Host.Outcome State Fault Refusal :=
  .next (s.deliver (immRegRecord true 0 (imm16Operand imm)) 3)

/-- Opcode `B9` (R105, R95): `mov cx, <imm16>`. -/
def execMovB9 (imm : U16) (s : State) : Host.Outcome State Fault Refusal :=
  .next (s.deliver (immRegRecord true 1 (imm16Operand imm)) 3)

/-- Opcode `BA` (R106, R95): `mov dx, <imm16>`. -/
def execMovBA (imm : U16) (s : State) : Host.Outcome State Fault Refusal :=
  .next (s.deliver (immRegRecord true 2 (imm16Operand imm)) 3)

/-- Opcode `BB` (R107, R95): `mov bx, <imm16>`. -/
def execMovBB (imm : U16) (s : State) : Host.Outcome State Fault Refusal :=
  .next (s.deliver (immRegRecord true 3 (imm16Operand imm)) 3)

/-- Opcode `BC` (R108, R95): `mov sp, <imm16>`. -/
def execMovBC (imm : U16) (s : State) : Host.Outcome State Fault Refusal :=
  .next (s.deliver (immRegRecord true 4 (imm16Operand imm)) 3)

/-- Opcode `BD` (R109, R95): `mov bp, <imm16>`. -/
def execMovBD (imm : U16) (s : State) : Host.Outcome State Fault Refusal :=
  .next (s.deliver (immRegRecord true 5 (imm16Operand imm)) 3)

/-- Opcode `BE` (R110, R95): `mov si, <imm16>`. -/
def execMovBE (imm : U16) (s : State) : Host.Outcome State Fault Refusal :=
  .next (s.deliver (immRegRecord true 6 (imm16Operand imm)) 3)

/-- Opcode `BF` (R111, R95): `mov di, <imm16>`. -/
def execMovBF (imm : U16) (s : State) : Host.Outcome State Fault Refusal :=
  .next (s.deliver (immRegRecord true 7 (imm16Operand imm)) 3)

end Sys2Proof.Machine
end

