-- ==== Sys2Proof/Machine/NoShape.lean ====
section
/-! DEFINITION. Unrecognized leading bytes (60_exceptions.md R140). The attempt ends with `Unrecognized` after exactly one byte. -/

namespace Sys2Proof.Machine

open Sys2Proof

/-- Leading bytes `00` to `7F`, no shape (R55, R140). -/
def execUnrecognized00to7F (lead : Byte) (s : State) : Host.Outcome State Fault Refusal :=
  .next (s.reject lead)

/-- Leading bytes `80` to `87`, no shape (R55, R140). -/
def execUnrecognized80to87 (lead : Byte) (s : State) : Host.Outcome State Fault Refusal :=
  .next (s.reject lead)

/-- Leading bytes `8C` to `8F`, no shape (R55, R140). -/
def execUnrecognized8Cto8F (lead : Byte) (s : State) : Host.Outcome State Fault Refusal :=
  .next (s.reject lead)

/-- Leading bytes `90` to `9F`, no shape (R55, R140). -/
def execUnrecognized90to9F (lead : Byte) (s : State) : Host.Outcome State Fault Refusal :=
  .next (s.reject lead)

/-- Leading bytes `A4` to `A7`, no shape (R55, R140). -/
def execUnrecognizedA4toA7 (lead : Byte) (s : State) : Host.Outcome State Fault Refusal :=
  .next (s.reject lead)

/-- Leading bytes `A8` to `AF`, no shape (R55, R140). -/
def execUnrecognizedA8toAF (lead : Byte) (s : State) : Host.Outcome State Fault Refusal :=
  .next (s.reject lead)

/-- Leading bytes `C0` to `C3`, no shape (R55, R140). -/
def execUnrecognizedC0toC3 (lead : Byte) (s : State) : Host.Outcome State Fault Refusal :=
  .next (s.reject lead)

/-- Leading bytes `C4` to `C5`, no shape (R55, R140). -/
def execUnrecognizedC4toC5 (lead : Byte) (s : State) : Host.Outcome State Fault Refusal :=
  .next (s.reject lead)

/-- Leading bytes `C8` to `CF`, no shape (R55, R140). -/
def execUnrecognizedC8toCF (lead : Byte) (s : State) : Host.Outcome State Fault Refusal :=
  .next (s.reject lead)

/-- Leading bytes `D0` to `DF`, no shape (R55, R140). -/
def execUnrecognizedD0toDF (lead : Byte) (s : State) : Host.Outcome State Fault Refusal :=
  .next (s.reject lead)

/-- Leading bytes `E0` to `FF`, no shape (R55, R140). -/
def execUnrecognizedE0toFF (lead : Byte) (s : State) : Host.Outcome State Fault Refusal :=
  .next (s.reject lead)

end Sys2Proof.Machine
end

