-- ==== Sys2Proof/Machine/RmReg.lean ====
section
/-! DEFINITION. MOV register/memory to or from register: leading bytes 88 to 8B (43_mov_rm_reg.md). The record is R89's with the operand the row's mode resolves to; the length is R46's. -/

namespace Sys2Proof.Machine

open Sys2Proof

/-- Opcode `88` (R90, R89), `mod=00`, `rm` 0 to 3 (R71). -/
def execMov88BaseLow (reg : Code) (rm : Code) (s : State) : Host.Outcome State Fault Refusal :=
  .next (s.deliver (rmRegRecord false false reg (baseOperand rm)) 2)

/-- Opcode `88` (R90, R89), `mod=00`, `rm` 4 or 5 (R71). -/
def execMov88BaseMid (reg : Code) (rm : Code) (s : State) : Host.Outcome State Fault Refusal :=
  .next (s.deliver (rmRegRecord false false reg (baseOperand rm)) 2)

/-- Opcode `88` (R90, R89), `mod=00`, `rm=7` (R71). -/
def execMov88BaseBx (reg : Code) (s : State) : Host.Outcome State Fault Refusal :=
  .next (s.deliver (rmRegRecord false false reg (baseOperand 7)) 2)

/-- Opcode `88` (R90, R89), `mod=00`, `rm=6`: direct address (R72). -/
def execMov88Direct (reg : Code) (addr : U16) (s : State) : Host.Outcome State Fault Refusal :=
  .next (s.deliver (rmRegRecord false false reg (directOperand addr)) 4)

/-- Opcode `88` (R90, R89), `mod=01`: 8-bit displacement (R73). -/
def execMov88Disp8 (reg : Code) (rm : Code) (disp : Byte) (s : State) : Host.Outcome State Fault Refusal :=
  .next (s.deliver (rmRegRecord false false reg (disp8Operand rm disp)) 3)

/-- Opcode `88` (R90, R89), `mod=10`: 16-bit displacement (R74). -/
def execMov88Disp16 (reg : Code) (rm : Code) (disp : U16) (s : State) : Host.Outcome State Fault Refusal :=
  .next (s.deliver (rmRegRecord false false reg (disp16Operand rm disp)) 4)

/-- Opcode `88` (R90, R89), `mod=11`: register (R70). -/
def execMov88Reg (reg : Code) (rm : Code) (s : State) : Host.Outcome State Fault Refusal :=
  .next (s.deliver (rmRegRecord false false reg (regOperand rm false)) 2)

/-- Opcode `89` (R91, R89), `mod=00`, `rm` 0 to 3 (R71). -/
def execMov89BaseLow (reg : Code) (rm : Code) (s : State) : Host.Outcome State Fault Refusal :=
  .next (s.deliver (rmRegRecord false true reg (baseOperand rm)) 2)

/-- Opcode `89` (R91, R89), `mod=00`, `rm` 4 or 5 (R71). -/
def execMov89BaseMid (reg : Code) (rm : Code) (s : State) : Host.Outcome State Fault Refusal :=
  .next (s.deliver (rmRegRecord false true reg (baseOperand rm)) 2)

/-- Opcode `89` (R91, R89), `mod=00`, `rm=7` (R71). -/
def execMov89BaseBx (reg : Code) (s : State) : Host.Outcome State Fault Refusal :=
  .next (s.deliver (rmRegRecord false true reg (baseOperand 7)) 2)

/-- Opcode `89` (R91, R89), `mod=00`, `rm=6`: direct address (R72). -/
def execMov89Direct (reg : Code) (addr : U16) (s : State) : Host.Outcome State Fault Refusal :=
  .next (s.deliver (rmRegRecord false true reg (directOperand addr)) 4)

/-- Opcode `89` (R91, R89), `mod=01`: 8-bit displacement (R73). -/
def execMov89Disp8 (reg : Code) (rm : Code) (disp : Byte) (s : State) : Host.Outcome State Fault Refusal :=
  .next (s.deliver (rmRegRecord false true reg (disp8Operand rm disp)) 3)

/-- Opcode `89` (R91, R89), `mod=10`: 16-bit displacement (R74). -/
def execMov89Disp16 (reg : Code) (rm : Code) (disp : U16) (s : State) : Host.Outcome State Fault Refusal :=
  .next (s.deliver (rmRegRecord false true reg (disp16Operand rm disp)) 4)

/-- Opcode `89` (R91, R89), `mod=11`: register (R70). -/
def execMov89Reg (reg : Code) (rm : Code) (s : State) : Host.Outcome State Fault Refusal :=
  .next (s.deliver (rmRegRecord false true reg (regOperand rm true)) 2)

/-- Opcode `8A` (R92, R89), `mod=00`, `rm` 0 to 3 (R71). -/
def execMov8ABaseLow (reg : Code) (rm : Code) (s : State) : Host.Outcome State Fault Refusal :=
  .next (s.deliver (rmRegRecord true false reg (baseOperand rm)) 2)

/-- Opcode `8A` (R92, R89), `mod=00`, `rm` 4 or 5 (R71). -/
def execMov8ABaseMid (reg : Code) (rm : Code) (s : State) : Host.Outcome State Fault Refusal :=
  .next (s.deliver (rmRegRecord true false reg (baseOperand rm)) 2)

/-- Opcode `8A` (R92, R89), `mod=00`, `rm=7` (R71). -/
def execMov8ABaseBx (reg : Code) (s : State) : Host.Outcome State Fault Refusal :=
  .next (s.deliver (rmRegRecord true false reg (baseOperand 7)) 2)

/-- Opcode `8A` (R92, R89), `mod=00`, `rm=6`: direct address (R72). -/
def execMov8ADirect (reg : Code) (addr : U16) (s : State) : Host.Outcome State Fault Refusal :=
  .next (s.deliver (rmRegRecord true false reg (directOperand addr)) 4)

/-- Opcode `8A` (R92, R89), `mod=01`: 8-bit displacement (R73). -/
def execMov8ADisp8 (reg : Code) (rm : Code) (disp : Byte) (s : State) : Host.Outcome State Fault Refusal :=
  .next (s.deliver (rmRegRecord true false reg (disp8Operand rm disp)) 3)

/-- Opcode `8A` (R92, R89), `mod=10`: 16-bit displacement (R74). -/
def execMov8ADisp16 (reg : Code) (rm : Code) (disp : U16) (s : State) : Host.Outcome State Fault Refusal :=
  .next (s.deliver (rmRegRecord true false reg (disp16Operand rm disp)) 4)

/-- Opcode `8A` (R92, R89), `mod=11`: register (R70). -/
def execMov8AReg (reg : Code) (rm : Code) (s : State) : Host.Outcome State Fault Refusal :=
  .next (s.deliver (rmRegRecord true false reg (regOperand rm false)) 2)

/-- Opcode `8B` (R93, R89), `mod=00`, `rm` 0 to 3 (R71). -/
def execMov8BBaseLow (reg : Code) (rm : Code) (s : State) : Host.Outcome State Fault Refusal :=
  .next (s.deliver (rmRegRecord true true reg (baseOperand rm)) 2)

/-- Opcode `8B` (R93, R89), `mod=00`, `rm` 4 or 5 (R71). -/
def execMov8BBaseMid (reg : Code) (rm : Code) (s : State) : Host.Outcome State Fault Refusal :=
  .next (s.deliver (rmRegRecord true true reg (baseOperand rm)) 2)

/-- Opcode `8B` (R93, R89), `mod=00`, `rm=7` (R71). -/
def execMov8BBaseBx (reg : Code) (s : State) : Host.Outcome State Fault Refusal :=
  .next (s.deliver (rmRegRecord true true reg (baseOperand 7)) 2)

/-- Opcode `8B` (R93, R89), `mod=00`, `rm=6`: direct address (R72). -/
def execMov8BDirect (reg : Code) (addr : U16) (s : State) : Host.Outcome State Fault Refusal :=
  .next (s.deliver (rmRegRecord true true reg (directOperand addr)) 4)

/-- Opcode `8B` (R93, R89), `mod=01`: 8-bit displacement (R73). -/
def execMov8BDisp8 (reg : Code) (rm : Code) (disp : Byte) (s : State) : Host.Outcome State Fault Refusal :=
  .next (s.deliver (rmRegRecord true true reg (disp8Operand rm disp)) 3)

/-- Opcode `8B` (R93, R89), `mod=10`: 16-bit displacement (R74). -/
def execMov8BDisp16 (reg : Code) (rm : Code) (disp : U16) (s : State) : Host.Outcome State Fault Refusal :=
  .next (s.deliver (rmRegRecord true true reg (disp16Operand rm disp)) 4)

/-- Opcode `8B` (R93, R89), `mod=11`: register (R70). -/
def execMov8BReg (reg : Code) (rm : Code) (s : State) : Host.Outcome State Fault Refusal :=
  .next (s.deliver (rmRegRecord true true reg (regOperand rm true)) 2)

end Sys2Proof.Machine
end

