-- ==== Sys2Proof/Machine/Dispatch.lean ====
section
/-! DEFINITION. The dispatch: one arm per constructor of `Instr`, each one direct call of its meaning. -/

namespace Sys2Proof.Machine

open Sys2Proof

def exec (i : Instr) (s : State) : Host.Outcome State Fault Refusal :=
  match i with
  | .mov88BaseLow reg rm => Sys2Proof.Machine.execMov88BaseLow reg rm s
  | .mov88BaseMid reg rm => Sys2Proof.Machine.execMov88BaseMid reg rm s
  | .mov88BaseBx reg => Sys2Proof.Machine.execMov88BaseBx reg s
  | .mov88Direct reg addr => Sys2Proof.Machine.execMov88Direct reg addr s
  | .mov88Disp8 reg rm disp => Sys2Proof.Machine.execMov88Disp8 reg rm disp s
  | .mov88Disp16 reg rm disp => Sys2Proof.Machine.execMov88Disp16 reg rm disp s
  | .mov88Reg reg rm => Sys2Proof.Machine.execMov88Reg reg rm s
  | .mov89BaseLow reg rm => Sys2Proof.Machine.execMov89BaseLow reg rm s
  | .mov89BaseMid reg rm => Sys2Proof.Machine.execMov89BaseMid reg rm s
  | .mov89BaseBx reg => Sys2Proof.Machine.execMov89BaseBx reg s
  | .mov89Direct reg addr => Sys2Proof.Machine.execMov89Direct reg addr s
  | .mov89Disp8 reg rm disp => Sys2Proof.Machine.execMov89Disp8 reg rm disp s
  | .mov89Disp16 reg rm disp => Sys2Proof.Machine.execMov89Disp16 reg rm disp s
  | .mov89Reg reg rm => Sys2Proof.Machine.execMov89Reg reg rm s
  | .mov8ABaseLow reg rm => Sys2Proof.Machine.execMov8ABaseLow reg rm s
  | .mov8ABaseMid reg rm => Sys2Proof.Machine.execMov8ABaseMid reg rm s
  | .mov8ABaseBx reg => Sys2Proof.Machine.execMov8ABaseBx reg s
  | .mov8ADirect reg addr => Sys2Proof.Machine.execMov8ADirect reg addr s
  | .mov8ADisp8 reg rm disp => Sys2Proof.Machine.execMov8ADisp8 reg rm disp s
  | .mov8ADisp16 reg rm disp => Sys2Proof.Machine.execMov8ADisp16 reg rm disp s
  | .mov8AReg reg rm => Sys2Proof.Machine.execMov8AReg reg rm s
  | .mov8BBaseLow reg rm => Sys2Proof.Machine.execMov8BBaseLow reg rm s
  | .mov8BBaseMid reg rm => Sys2Proof.Machine.execMov8BBaseMid reg rm s
  | .mov8BBaseBx reg => Sys2Proof.Machine.execMov8BBaseBx reg s
  | .mov8BDirect reg addr => Sys2Proof.Machine.execMov8BDirect reg addr s
  | .mov8BDisp8 reg rm disp => Sys2Proof.Machine.execMov8BDisp8 reg rm disp s
  | .mov8BDisp16 reg rm disp => Sys2Proof.Machine.execMov8BDisp16 reg rm disp s
  | .mov8BReg reg rm => Sys2Proof.Machine.execMov8BReg reg rm s
  | .movB0 imm => Sys2Proof.Machine.execMovB0 imm s
  | .movB1 imm => Sys2Proof.Machine.execMovB1 imm s
  | .movB2 imm => Sys2Proof.Machine.execMovB2 imm s
  | .movB3 imm => Sys2Proof.Machine.execMovB3 imm s
  | .movB4 imm => Sys2Proof.Machine.execMovB4 imm s
  | .movB5 imm => Sys2Proof.Machine.execMovB5 imm s
  | .movB6 imm => Sys2Proof.Machine.execMovB6 imm s
  | .movB7 imm => Sys2Proof.Machine.execMovB7 imm s
  | .movB8 imm => Sys2Proof.Machine.execMovB8 imm s
  | .movB9 imm => Sys2Proof.Machine.execMovB9 imm s
  | .movBA imm => Sys2Proof.Machine.execMovBA imm s
  | .movBB imm => Sys2Proof.Machine.execMovBB imm s
  | .movBC imm => Sys2Proof.Machine.execMovBC imm s
  | .movBD imm => Sys2Proof.Machine.execMovBD imm s
  | .movBE imm => Sys2Proof.Machine.execMovBE imm s
  | .movBF imm => Sys2Proof.Machine.execMovBF imm s
  | .movC6BaseLow ign rm imm => Sys2Proof.Machine.execMovC6BaseLow ign rm imm s
  | .movC6BaseMid ign rm imm => Sys2Proof.Machine.execMovC6BaseMid ign rm imm s
  | .movC6BaseBx ign imm => Sys2Proof.Machine.execMovC6BaseBx ign imm s
  | .movC6Direct ign addr imm => Sys2Proof.Machine.execMovC6Direct ign addr imm s
  | .movC6Disp8 ign rm disp imm => Sys2Proof.Machine.execMovC6Disp8 ign rm disp imm s
  | .movC6Disp16 ign rm disp imm => Sys2Proof.Machine.execMovC6Disp16 ign rm disp imm s
  | .movC6Reg ign rm imm => Sys2Proof.Machine.execMovC6Reg ign rm imm s
  | .movC7BaseLow ign rm imm => Sys2Proof.Machine.execMovC7BaseLow ign rm imm s
  | .movC7BaseMid ign rm imm => Sys2Proof.Machine.execMovC7BaseMid ign rm imm s
  | .movC7BaseBx ign imm => Sys2Proof.Machine.execMovC7BaseBx ign imm s
  | .movC7Direct ign addr imm => Sys2Proof.Machine.execMovC7Direct ign addr imm s
  | .movC7Disp8 ign rm disp imm => Sys2Proof.Machine.execMovC7Disp8 ign rm disp imm s
  | .movC7Disp16 ign rm disp imm => Sys2Proof.Machine.execMovC7Disp16 ign rm disp imm s
  | .movC7Reg ign rm imm => Sys2Proof.Machine.execMovC7Reg ign rm imm s
  | .movA0 addr => Sys2Proof.Machine.execMovA0 addr s
  | .movA1 addr => Sys2Proof.Machine.execMovA1 addr s
  | .movA2 addr => Sys2Proof.Machine.execMovA2 addr s
  | .movA3 addr => Sys2Proof.Machine.execMovA3 addr s
  | .unrecognized00to7F lead => Sys2Proof.Machine.execUnrecognized00to7F lead s
  | .unrecognized80to87 lead => Sys2Proof.Machine.execUnrecognized80to87 lead s
  | .unrecognized8Cto8F lead => Sys2Proof.Machine.execUnrecognized8Cto8F lead s
  | .unrecognized90to9F lead => Sys2Proof.Machine.execUnrecognized90to9F lead s
  | .unrecognizedA4toA7 lead => Sys2Proof.Machine.execUnrecognizedA4toA7 lead s
  | .unrecognizedA8toAF lead => Sys2Proof.Machine.execUnrecognizedA8toAF lead s
  | .unrecognizedC0toC3 lead => Sys2Proof.Machine.execUnrecognizedC0toC3 lead s
  | .unrecognizedC4toC5 lead => Sys2Proof.Machine.execUnrecognizedC4toC5 lead s
  | .unrecognizedC8toCF lead => Sys2Proof.Machine.execUnrecognizedC8toCF lead s
  | .unrecognizedD0toDF lead => Sys2Proof.Machine.execUnrecognizedD0toDF lead s
  | .unrecognizedE0toFF lead => Sys2Proof.Machine.execUnrecognizedE0toFF lead s

end Sys2Proof.Machine
end

