-- ==== Sys2Proof/Machine/Step.lean ====
section
/-! DEFINITION. One step: one decode attempt (R4, R64) and the sequencer's answer to its result (R67). -/

namespace Sys2Proof.Machine

open Sys2Proof

/-- One iteration of the loop of R67. The causes are tested in the order of R144: the end of the stream, then the
classification of the leading byte, then the follow-on reads. Once the pass is over there is no further step (U12). -/
def step (s : State) : Host.Outcome State Fault Refusal :=
  if s.ended then .fault .passEnded
  else
    match decode s.stream with
    | .instr i _ => exec i s
    | .endOfStream => .next s.endAttempt
    | .truncated lead => .next (s.truncate lead)

/-- `s` with the instruction of a table word in SRC at the cursor, the pass running: what the host does when it hands
the block a source (R153); log entry 6. -/
def State.withFetchWord (s : State) (nbits w : Nat) : State :=
  { s with src := s.src.place s.off (tableBytes nbits w), final := .running }

end Sys2Proof.Machine
end

