-- ==== Sys2Proof/Machine/Cursor.lean ====
section
/-! DEFINITION. The decode attempt as the spec's pseudocode writes it, byte read by byte read: the Byte Cursor (R57),
the fallible follow-on read (R60), the readers (R79 to R84), the resolver (R75), the five routines (R89, R95, R113,
R118), the dispatch (R63) and `decode_one` (R64). `step` decodes whole instructions instead; an obligation says that
the two agree. -/

namespace Sys2Proof.Machine

open Sys2Proof

/-- The answer of the cursor: a byte or the end of the stream, never a partial or stale value (R58). -/
inductive ByteRead where
  | byte (b : Byte)
  | endOfStream
  deriving DecidableEq, Repr

/-- `next_byte()` (R57): the only operation of the cursor, and the only writer of OFF (R59). -/
def nextByte (s : State) : ByteRead × State :=
  match s.src.read s.off with
  | some b => (.byte b, s.setOff (s.off + 1))
  | none => (.endOfStream, s)

/-- A part of a decode attempt: it yields a value, or raises `TruncatedInstruction` (`none`); either way it leaves a
state, whose cursor stands where the reads left it. -/
abbrev Attempt (α : Type) := State → Option α × State

/-- The value `a`, with no byte consumed. -/
def yields {α : Type} (a : α) : Attempt α := fun s => (some a, s)

/-- First `x`, then `f` of its value; a raise in `x` ends the attempt (R64). -/
def andThen {α β : Type} (x : Attempt α) (f : α → Attempt β) : Attempt β := fun s =>
  match x s with
  | (some a, t) => f a t
  | (none, t) => (none, t)

/-- `need_byte()` (R60). -/
def needByte : Attempt Byte := fun s =>
  match nextByte s with
  | (.byte b, t) => (some b, t)
  | (.endOfStream, t) => (none, t)

/-- `read_u8()` (R79). -/
def readU8 : Attempt Byte := needByte

/-- `read_u16_le()` (R80). -/
def readU16 : Attempt U16 :=
  andThen needByte fun lo => andThen needByte fun hi => yields (le16 lo hi)

/-- `read_disp8()` (R81). -/
def readDisp8 : Attempt U16 := andThen readU8 fun b => yields (sext16 b)

/-- `read_disp16()` (R82). -/
def readDisp16 : Attempt U16 := readU16

/-- `read_addr16()` (R83). -/
def readAddr16 : Attempt U16 := readU16

/-- `read_imm(w)` (R84). -/
def readImm (w : Bool) : Attempt U16 :=
  if w then readU16 else andThen readU8 fun b => yields (sext16 b)

/-- `resolve_rm(mod, rm, w)` (R75). -/
def resolveRm (mod : BitVec 2) (rm : Code) (w : Bool) : Attempt Operand :=
  if mod = 3 then yields (.register rm (widthOf w))
  else if mod = 0 then
    (if rm = 6 then andThen readAddr16 fun a => yields (.directAddress a) else yields (.memory rm none))
  else if mod = 1 then andThen readDisp8 fun d => yields (.memory rm (some d))
  else andThen readDisp16 fun d => yields (.memory rm (some d))

/-- `resolve_reg(reg, w)` (R76). -/
def resolveReg (reg : Code) (w : Bool) : Operand := .register reg (widthOf w)

/-- `decode_rm_reg(lead)` (R89). -/
def decodeRmReg (lead : Byte) : Attempt DecodedInstruction :=
  andThen needByte fun m =>
  andThen (resolveRm (modOf m) (rmOf m) (wBit lead)) fun operand =>
  yields (if dBit lead then ⟨.mov, resolveReg (regOf m) (wBit lead), operand, false⟩
    else ⟨.mov, operand, resolveReg (regOf m) (wBit lead), false⟩)

/-- `decode_imm_reg(lead)` (R95). -/
def decodeImmReg (lead : Byte) : Attempt DecodedInstruction :=
  andThen (readImm (wBitImmReg lead)) fun v =>
  yields ⟨.mov, resolveReg (leadReg lead) (wBitImmReg lead), .immediate v (widthOf (wBitImmReg lead)), false⟩

/-- `decode_imm_mem(lead)` (R113): displacement or address bytes first, the immediate after. -/
def decodeImmMem (lead : Byte) : Attempt DecodedInstruction :=
  andThen needByte fun m =>
  andThen (resolveRm (modOf m) (rmOf m) (wBit lead)) fun operand =>
  andThen (readImm (wBit lead)) fun v =>
  yields ⟨.mov, operand, .immediate v (widthOf (wBit lead)), qualifiedFor operand⟩

/-- `decode_mem_acc(lead)` (R118). -/
def decodeMemAcc (lead : Byte) : Attempt DecodedInstruction :=
  andThen readAddr16 fun a => yields ⟨.mov, .register 0 (widthOf (wBit lead)), .directAddress a, false⟩

/-- `decode_acc_mem(lead)` (R118). -/
def decodeAccMem (lead : Byte) : Attempt DecodedInstruction :=
  andThen readAddr16 fun a => yields ⟨.mov, .directAddress a, .register 0 (widthOf (wBit lead)), false⟩

/-- `dispatch(lead)` (R63): the routine of the shape; `NoShape` selects none. -/
def dispatch (lead : Byte) : Option (Attempt DecodedInstruction) :=
  match classify lead with
  | .rmReg => some (decodeRmReg lead)
  | .immReg => some (decodeImmReg lead)
  | .immMem => some (decodeImmMem lead)
  | .memAcc => some (decodeMemAcc lead)
  | .accMem => some (decodeAccMem lead)
  | .noShape => none

/-- `decode_one()` (R64): it may be called at any time, after any result (R146). -/
def decodeOne (s : State) : State :=
  match nextByte s with
  | (.endOfStream, t) => t.setRes (.endOfStream s.off)
  | (.byte lead, t) =>
    match dispatch lead with
    | none => t.setRes (.unrecognized s.off lead)
    | some routine =>
      match routine t with
      | (some record, u) => (u.pushRec record).setRes (.decoded record s.off (u.off - s.off))
      | (none, u) => u.setRes (.truncatedInstruction s.off lead)

/-- The body of the loop of `run()` (R67): one attempt, then the sequencer's answer to its result. -/
def iterate (s : State) : State :=
  match (decodeOne s).res with
  | some r => (decodeOne s).settle r
  | none => decodeOne s

end Sys2Proof.Machine
end

