-- ==== Sys2Proof/Machine/Run.lean ====
section
/-! DEFINITION. A decode pass: the steps up to the end (R67), and what the host observes of them (R5). -/

namespace Sys2Proof.Machine

open Sys2Proof

/-- At most `fuel` steps, stopping where there is no further step (R67). -/
def run : Nat → State → State
  | 0, s => s
  | fuel + 1, s =>
    match step s with
    | .next t => run fuel t
    | .fault _ => s
    | .refused _ => s

/-- The ordered sequence of results, one per decode attempt, of at most `fuel` attempts (R5). -/
def results : Nat → State → List Result
  | 0, _ => []
  | fuel + 1, s =>
    match step s with
    | .next t => t.res.toList ++ results fuel t
    | .fault _ => []
    | .refused _ => []

/-- `run()` (R67), with the bound of R163: at most LEN + 1 attempts. -/
def runToEnd (s : State) : State := run (s.src.len + 1) s

end Sys2Proof.Machine
end

