-- ==== Sys2Proof/Safety.lean ====
section
/-! DEFINITION. What counts as a safe run, and the invariants of the block in the terms claims use. -/

namespace Sys2Proof.Machine

open Sys2Proof

/-- No fault is recorded: "`DoneOk` is the only final status that is not a fault" (R67). -/
def noFaultRecorded (s : State) : Bool :=
  match s.final with
  | .running => true
  | .doneOk => true
  | .doneTruncated _ _ => false
  | .doneUnrecognized _ _ => false

/-- SRC is a byte sequence of length LEN and `OFF <= LEN` (R12, R13). -/
def cursorInBounds (s : State) : Bool := s.src.wf && decide (s.off ≤ s.src.len)

/-- The lines of records, each with its newline, in order (R134). -/
def listing (records : List DecodedInstruction) : Text := records.flatMap fun r => fmtInstr r ++ [newline]

/-- OUT is the listing of RECS (R18, R136); under the policy PLACEHOLDER, where other lines stand between, that listing
is a subsequence of it. -/
def outIsListing (s : State) : Bool :=
  match s.policy with
  | .halt => decide (s.out = listing s.recs)
  | .skipOne => decide (s.out = listing s.recs)
  | .placeholder => decide ((listing s.recs).Sublist s.out)

/-- What a line of OUT can be: that of a record, or the placeholder line of an unrecognized byte (R67, R134). -/
inductive OutLine where
  | ofRecord (record : DecodedInstruction)
  | ofPlaceholder (lead : Byte)
  deriving DecidableEq, Repr

/-- The bytes of a line, its newline included. -/
def OutLine.text (l : OutLine) : Text :=
  match l with
  | .ofRecord record => fmtInstr record ++ [newline]
  | .ofPlaceholder lead => placeholderLine lead ++ [newline]

/-- The record a line stands for. -/
def OutLine.record? (l : OutLine) : Option DecodedInstruction :=
  match l with
  | .ofRecord record => some record
  | .ofPlaceholder _ => none

/-- OUT is made of whole lines, whose records are RECS in order, and only the policy PLACEHOLDER has other lines
(R18, R67, R136). -/
def OutIsLines (s : State) : Prop :=
  ∃ lines : List OutLine, s.out = lines.flatMap OutLine.text ∧ s.recs = lines.filterMap OutLine.record? ∧
    (s.policy ≠ .placeholder → ∀ l ∈ lines, l.record?.isSome = true)

/-- The byte-width immediate patterns are sign extensions of a byte (R19). -/
def immediateFits (value : U16) (width : Width) : Bool :=
  match width with
  | .byte => decide (value = sext16 (value.extractLsb' 0 8))
  | .word => true

/-- A memory operand the resolver can give: base code 6 comes only with a displacement (R72). -/
def memoryFits (base : Code) (disp : Option U16) : Bool := decide (base ≠ 6) || disp.isSome

/-- The records that can occur: the table of R19, with one width in a record, no immediate destination, no pair of
memory operands, and `qualified` exactly for an immediate stored to memory. -/
def recordFits (r : DecodedInstruction) : Bool :=
  match r.destination, r.source with
  | .register _ w, .register _ w' => decide (w = w') && !r.qualified
  | .register _ _, .memory base disp => memoryFits base disp && !r.qualified
  | .register _ _, .directAddress _ => !r.qualified
  | .register _ w, .immediate value w' => decide (w = w') && immediateFits value w' && !r.qualified
  | .memory base disp, .register _ _ => memoryFits base disp && !r.qualified
  | .directAddress _, .register _ _ => !r.qualified
  | .memory base disp, .immediate value w => memoryFits base disp && immediateFits value w && r.qualified
  | .directAddress _, .immediate value w => immediateFits value w && r.qualified
  | .memory _ _, .memory _ _ => false
  | .memory _ _, .directAddress _ => false
  | .directAddress _, .memory _ _ => false
  | .directAddress _, .directAddress _ => false
  | .immediate _ _, _ => false

/-- Every record of RECS can occur (R19). -/
def recordsFit (s : State) : Bool := s.recs.all recordFits

/-- RES, OFF, RECS and FINAL tell the same story (R17, R65, R67). -/
def statusAgrees (s : State) : Bool :=
  match s.res with
  | none => decide (s.final = .running)
  | some (.decoded record start length) =>
    decide (s.final = .running) && decide (s.off = start + length) && decide (2 ≤ length) && decide (length ≤ 6) &&
      decide (s.recs.getLast? = some record)
  | some (.endOfStream start) =>
    decide (s.final = .doneOk) && decide (start = s.off) && decide (s.off = s.src.len)
  | some (.truncatedInstruction start lead) =>
    decide (s.final = .doneTruncated start lead) && decide (start < s.off) && decide (s.off = s.src.len)
  | some (.unrecognized start lead) =>
    decide (s.off = start + 1) && decide (classify lead = .noShape) &&
      decide (s.final = (if s.policy = .halt then .doneUnrecognized start lead else .running))

/-- The bytes a line can hold, and the newline (R134). -/
def lineByte (b : Byte) : Bool :=
  (decide (0x61 ≤ b) && decide (b ≤ 0x7A)) || (decide (0x30 ≤ b) && decide (b ≤ 0x39)) ||
    decide (b ∈ ascii " []+-,") || decide (b = newline)

/-- OUT is ASCII; and every byte of it is one of R134's set where no placeholder line can stand in it. -/
def outIsText (s : State) : Bool :=
  s.out.all (fun b => decide (b.toNat < 128)) && (decide (s.policy = .placeholder) || s.out.all lineByte)

end Sys2Proof.Machine
end

