-- ==== Sys2Proof/Certificates/Slice0/Obligations.lean ====
section
/-! DEFINITION. The statements for the provers, from the numbered rules of the spec, and the few functions they are
said with. -/

namespace Sys2Proof.Claims

open Sys2Proof Sys2Proof.Machine

/-- The state after a decoded instruction of `n` bytes (R64, R65, R67, R134). -/
def afterDecoded (s : State) (r : DecodedInstruction) (n : Nat) : State :=
  { s with
    off := s.off + n
    res := some (.decoded r s.off n)
    recs := s.recs ++ [r]
    out := s.out ++ fmtInstr r ++ [0x0A] }

/-- The state after a truncated instruction (R65, R67, R139). -/
def afterTruncated (s : State) (lead : Byte) : State :=
  { s with
    off := s.src.len
    res := some (.truncatedInstruction s.off lead)
    final := .doneTruncated s.off lead }

/-- The state after an unrecognized byte, by policy (R65, R67, R140). -/
def afterUnrecognized (s : State) (lead : Byte) : State :=
  match s.policy with
  | .halt => { s with
      off := s.off + 1
      res := some (.unrecognized s.off lead)
      final := .doneUnrecognized s.off lead }
  | .skipOne => { s with
      off := s.off + 1
      res := some (.unrecognized s.off lead) }
  | .placeholder => { s with
      off := s.off + 1
      res := some (.unrecognized s.off lead)
      out := s.out ++ placeholderLine lead ++ [0x0A] }

/-- `instr_len` (R50) of a leading byte and the byte after it; 1 for an unrecognized byte (R140). -/
def instrLen (lead m : Byte) : Nat :=
  match classify lead with
  | .rmReg => 2 + dispLen (modOf m) (rmOf m)
  | .immReg => 1 + immLen (wBitImmReg lead)
  | .immMem => 2 + dispLen (modOf m) (rmOf m) + immLen (wBit lead)
  | .memAcc => 3
  | .accMem => 3
  | .noShape => 1

/-- The width that bit `k` of a leading byte selects (R40), by arithmetic. -/
def widthOfBit (lead : Byte) (k : Nat) : Width := if lead.toNat / 2 ^ k % 2 = 0 then .byte else .word

/-- The operand of a ModRM byte and the number of bytes it takes after it (the table of R75), by arithmetic on the
bytes; nothing where they run out. -/
def modRmOperand (m : Byte) (w : Width) (rest : List Byte) : Option (Operand × Nat) :=
  if m.toNat / 64 = 3 then some (.register (BitVec.ofNat 3 (m.toNat % 8)) w, 0)
  else if m.toNat / 64 = 0 ∧ m.toNat % 8 ≠ 6 then some (.memory (BitVec.ofNat 3 (m.toNat % 8)) none, 0)
  else if m.toNat / 64 = 1 then
    match rest with
    | b :: _ => some (.memory (BitVec.ofNat 3 (m.toNat % 8))
        (some (BitVec.ofNat 16 (if b.toNat ≤ 127 then b.toNat else b.toNat + 65280))), 1)
    | [] => none
  else
    match rest with
    | lo :: hi :: _ =>
      if m.toNat / 64 = 0 then some (.directAddress (BitVec.ofNat 16 (lo.toNat + 256 * hi.toNat)), 2)
      else some (.memory (BitVec.ofNat 3 (m.toNat % 8)) (some (BitVec.ofNat 16 (lo.toNat + 256 * hi.toNat))), 2)
    | [_] => none
    | [] => none

/-- The 16-bit pattern of an immediate and the number of its bytes (R84), by arithmetic; nothing where they run
out. -/
def immediateBytes (w : Width) (rest : List Byte) : Option (U16 × Nat) :=
  match w, rest with
  | .byte, b :: _ => some (BitVec.ofNat 16 (if b.toNat ≤ 127 then b.toNat else b.toNat + 65280), 1)
  | .word, lo :: hi :: _ => some (BitVec.ofNat 16 (lo.toNat + 256 * hi.toNat), 2)
  | .byte, [] => none
  | .word, [_] => none
  | .word, [] => none

/-- The number a sequence of digits stands for, most significant first. -/
def numeralValue (t : Text) : Nat := t.foldl (fun v b => 10 * v + (b.toNat - 48)) 0

/-- A result with its start offset replaced. -/
def resultFrom (start : Nat) (r : Result) : Result :=
  match r with
  | .decoded record _ length => .decoded record start length
  | .endOfStream _ => .endOfStream start
  | .truncatedInstruction _ lead => .truncatedInstruction start lead
  | .unrecognized _ lead => .unrecognized start lead

/-- The result is `Decoded`. -/
def isDecoded (r : Result) : Bool := r.code == 0

/-- The result is `Unrecognized`. -/
def isUnrecognized (r : Result) : Bool := r.code == 3

/-- The records one instruction delivers. -/
def recordsOf (i : Instr) : List DecodedInstruction :=
  match exec i State.reset with
  | .next t => t.recs
  | .fault _ => []
  | .refused _ => []

end Sys2Proof.Claims

open Sys2Proof Sys2Proof.Machine

/-- For every byte sequence and policy the host hands over: after the launch OFF is 0, RES is None, OUT and RECS are
empty, LEN is the length of the sequence, SRC[a] is its byte number a, the cursor has the whole sequence before
it (decoding starts at offset 0), and the three tables hold the constants of rules R14 to R16, of whose register
names ten are from general knowledge by the spec's own mark (PRESUMED, log entry 4). State.reset is the launch
with an empty source and the default policy (the model's choice, log entry 5). The zero offset and the empty
outputs are the spec's own decisions D6 and D12. [R9, R14, R15, R16, R22, R154] -/
def Obligations.LaunchLeavesTheResetState : Prop :=
  (∀ (bytes : List Byte) (policy : Policy),
    (State.launch bytes policy).off = 0 ∧
    (State.launch bytes policy).res = none ∧
    (State.launch bytes policy).out = [] ∧
    (State.launch bytes policy).recs = [] ∧
    (State.launch bytes policy).src.len = bytes.length ∧
    (∀ a, (State.launch bytes policy).src.read a = bytes[a]?) ∧
    (State.launch bytes policy).stream = bytes) ∧
  reg8 = ["al", "cl", "dl", "bl", "ah", "ch", "dh", "bh"].map ascii ∧
  reg16 = ["ax", "cx", "dx", "bx", "sp", "bp", "si", "di"].map ascii ∧
  eaBase = ["bx + si", "bx + di", "bp + si", "bp + di", "si", "di", "bp", "bx"].map ascii ∧
  State.reset = State.launch [] .halt

/-- classify gives RM_REG on 88-8B, IMM_REG on B0-BF, IMM_MEM on C6-C7, MEM_ACC on A0-A1, ACC_MEM on A2-A3 and
NoShape on every other byte. [R61] -/
def Obligations.ClassifierByByteRanges : Prop :=
  ∀ lead : Byte, classify lead =
    if 0x88 ≤ lead.toNat ∧ lead.toNat ≤ 0x8B then .rmReg
    else if 0xB0 ≤ lead.toNat ∧ lead.toNat ≤ 0xBF then .immReg
    else if 0xC6 ≤ lead.toNat ∧ lead.toNat ≤ 0xC7 then .immMem
    else if 0xA0 ≤ lead.toNat ∧ lead.toNat ≤ 0xA1 then .memAcc
    else if 0xA2 ≤ lead.toNat ∧ lead.toNat ≤ 0xA3 then .accMem
    else .noShape

/-- The ModRM fields are the quotients and remainders that put the byte together again; the leading byte of RM_REG
is 88 + 2d + w, of IMM_REG B0 + 8w + reg, of IMM_MEM C6 + w, of MEM_ACC A0 + w, of ACC_MEM A2 + w; w = 0 is
Byte, w = 1 is Word. [R38, R39, R40, R41, R42] -/
def Obligations.FieldExtractorByArithmetic : Prop :=
  (∀ m : Byte, m.toNat = 64 * (modOf m).toNat + 8 * (regOf m).toNat + (rmOf m).toNat) ∧
  (∀ lead : Byte,
    (classify lead = .rmReg → lead.toNat = 0x88 + 2 * (dBit lead).toNat + (wBit lead).toNat) ∧
    (classify lead = .immReg → lead.toNat = 0xB0 + 8 * (wBitImmReg lead).toNat + (leadReg lead).toNat) ∧
    (classify lead = .immMem → lead.toNat = 0xC6 + (wBit lead).toNat) ∧
    (classify lead = .memAcc → lead.toNat = 0xA0 + (wBit lead).toNat) ∧
    (classify lead = .accMem → lead.toNat = 0xA2 + (wBit lead).toNat)) ∧
  widthOf false = .byte ∧ widthOf true = .word

/-- le16 is lo + 256*hi; sext_16 keeps a byte up to 127 and adds 65280 from 128 on; signed16 keeps a pattern up to
32767 and subtracts 65536 above; the signed reading of a sign-extended byte is the byte read as signed 8 bits;
both widening paths of FF give -1. [R25, R81, R84, R85, R88] -/
def Obligations.ReaderArithmeticLaws : Prop :=
  (∀ lo hi : Byte, (le16 lo hi).toNat = lo.toNat + 256 * hi.toNat) ∧
  (∀ v : Byte, (sext16 v).toNat = if v.toNat ≤ 127 then v.toNat else v.toNat + 65280) ∧
  (∀ u : U16, signed16 u = if u.toNat ≤ 32767 then (u.toNat : Int) else (u.toNat : Int) - 65536) ∧
  (∀ v : Byte, signed16 (sext16 v) = if v.toNat ≤ 127 then (v.toNat : Int) else (v.toNat : Int) - 256) ∧
  signed16 (sext16 0xFF) = -1 ∧ signed16 (le16 0xFF 0xFF) = -1

/-- For every code, fmt_reg(code, Byte) is entry code of REG8 and fmt_reg(code, Word) entry code of REG16; two
register operands print the same name only if code and width are equal; the entries the source document itself
fixes are al, bh, ax, cx, bx and di. The other ten names are from general knowledge by the spec's own mark
(PRESUMED, log entry 4). [R14, R15, R124, R125] -/
def Obligations.RegisterNamesNeverAlias : Prop :=
  (∀ id : Code, some (fmtReg id .byte) =
    (["al", "cl", "dl", "bl", "ah", "ch", "dh", "bh"].map ascii)[id.toNat]?) ∧
  (∀ id : Code, some (fmtReg id .word) =
    (["ax", "cx", "dx", "bx", "sp", "bp", "si", "di"].map ascii)[id.toNat]?) ∧
  (∀ (i j : Code) (w v : Width), fmtReg i w = fmtReg j v → i = j ∧ w = v) ∧
  fmtReg 0 .byte = ascii "al" ∧ fmtReg 7 .byte = ascii "bh" ∧ fmtReg 0 .word = ascii "ax" ∧
  fmtReg 1 .word = ascii "cx" ∧ fmtReg 3 .word = ascii "bx" ∧ fmtReg 7 .word = ascii "di"

/-- For every natural number n, dec(n) is a non-empty sequence of the digits 0 to 9 whose value, most significant
digit first, is n, and it starts with the digit 0 only for n = 0; dec(0) is the one digit 0. [00_scope.md
section 5 (dec), R88, 92_eei_decisions.md D9] -/
def Obligations.DecimalNumeralsAreMinimal : Prop :=
  dec 0 = [0x30] ∧
  ∀ n : Nat, Claims.numeralValue (dec n) = n ∧ dec n ≠ [] ∧
    (∀ b ∈ dec n, 0x30 ≤ b.toNat ∧ b.toNat ≤ 0x39) ∧ ((dec n).head? = some 0x30 → n = 0)

/-- For every rm, fmt_base(rm) is entry rm of the eight texts of EABASE; a base without displacement is the bare
base in brackets; a displacement pattern below 32768 prints base, plus sign and the number; one from 32768 on
prints base, minus sign and 65536 minus the pattern; a direct address prints its unsigned value. Zero
displacement and addresses from 32768 on follow decisions D5 and D4 of the spec. [R16, R126, R127, R128, R129] -/
def Obligations.MemoryOperandsRenderSignAndMagnitude : Prop :=
  (∀ rm : Code, some (fmtBase rm) =
    (["bx + si", "bx + di", "bp + si", "bp + di", "si", "di", "bp", "bx"].map ascii)[rm.toNat]?) ∧
  (∀ base : Code, fmtMem base none = ascii "[" ++ fmtBase base ++ ascii "]") ∧
  (∀ (base : Code) (d : U16), d.toNat < 32768 →
    fmtMem base (some d) = ascii "[" ++ fmtBase base ++ ascii " + " ++ dec d.toNat ++ ascii "]") ∧
  (∀ (base : Code) (d : U16), 32768 ≤ d.toNat →
    fmtMem base (some d) = ascii "[" ++ fmtBase base ++ ascii " - " ++ dec (65536 - d.toNat) ++ ascii "]") ∧
  (∀ addr : U16, fmtDirect addr = ascii "[" ++ dec addr.toNat ++ ascii "]")

/-- An unqualified immediate prints its 16-bit pattern as a signed decimal (a minus sign directly before the
magnitude for patterns from 32768 on); a qualified one prints byte or word, by its width, one space, and the
same numeral. [R130, R131] -/
def Obligations.ImmediatesRenderSignedWithQualifier : Prop :=
  (∀ (v : U16) (w : Width), v.toNat < 32768 → fmtImm v w false = dec v.toNat) ∧
  (∀ (v : U16) (w : Width), 32768 ≤ v.toNat → fmtImm v w false = ascii "-" ++ dec (65536 - v.toNat)) ∧
  (∀ v : U16, fmtImm v .byte true = ascii "byte " ++ fmtImm v .byte false) ∧
  (∀ v : U16, fmtImm v .word true = ascii "word " ++ fmtImm v .word false)

/-- For every record, fmt_instr is the text mov and a space, the destination rendered unqualified, a comma and a
space, and the source rendered with the record's qualified flag. fmt_operand of a register is fmt_reg, of a
memory operand fmt_mem, of a direct address fmt_direct, of an immediate fmt_imm with the flag it is given (R132,
which the spec derives from R124 and R127 to R130). [R132, R133] -/
def Obligations.LineIsMnemonicDestinationSource : Prop :=
  (∀ (dst src : Operand) (q : Bool),
    fmtInstr ⟨.mov, dst, src, q⟩ = ascii "mov " ++ fmtOperand dst false ++ ascii ", " ++ fmtOperand src q) ∧
  (∀ (id : Code) (w : Width) (q : Bool), fmtOperand (.register id w) q = fmtReg id w) ∧
  (∀ (base : Code) (disp : Option U16) (q : Bool), fmtOperand (.memory base disp) q = fmtMem base disp) ∧
  (∀ (addr : U16) (q : Bool), fmtOperand (.directAddress addr) q = fmtDirect addr) ∧
  (∀ (v : U16) (w : Width) (q : Bool), fmtOperand (.immediate v w) q = fmtImm v w q)

/-- For every well-formed instruction of the 73 rows, every value of its operands and every continuation of the
stream, the decoder reads the encoding back as exactly that instruction and leaves the continuation. (The block
has no encoder, rule R7: encode states the formats.) [R37, R46, R47, R48, R49, R55] -/
def Obligations.DecodeOfEncodeIsTheInstruction : Prop :=
  ∀ (i : Instr) (rest : List Byte), i.wf = true → decode (encode i ++ rest) = .instr i rest

/-- Whenever the decoder finds an instruction at the head of a byte sequence, the instruction is well formed and the
sequence is its encoding followed by the rest: no bit of a consumed byte is dropped. [R43, R54, R55, R66] -/
def Obligations.EncodeOfDecodeIsTheBytes : Prop :=
  ∀ (bytes : List Byte) (i : Instr) (rest : List Byte),
    decode bytes = .instr i rest → i.wf = true ∧ bytes = encode i ++ rest

/-- If the decoder finds an instruction at the head of a byte sequence, it finds the same instruction when the bytes
after it are replaced by any others. [R20, R66, R68] -/
def Obligations.DecodingDependsOnOwnBytesOnly : Prop :=
  ∀ (bytes : List Byte) (i : Instr) (rest other : List Byte), decode bytes = .instr i rest →
    decode (bytes.take (bytes.length - rest.length) ++ other) = .instr i other

/-- For any two first bytes with four more behind them the decoder finds an instruction; of the 73 rows (mask and
match over byte0*256 + byte1) exactly the row of its constructor matches, and its length is that row's.
[30_encoding.md section 8, R44, R55] -/
def Obligations.OpcodeTableRowsPartitionTheDecoder : Prop :=
  tableRows.length = 73 ∧
  ∀ (b0 b1 : Byte) (tail : List Byte), 4 ≤ tail.length →
    ∃ i rest, decode (b0 :: b1 :: tail) = .instr i rest ∧
      (∀ (k : Nat) (row : Row), tableRows[k]? = some row → ((b0 ++ b1) &&& row.mask = row.value ↔ k = i.ctorIdx)) ∧
      (tableRows[i.ctorIdx]?).map Row.length = some (encode i).length

/-- For every well-formed instruction, the number of bytes of its encoding is instr_len of its leading byte and, for
the ModRM shapes, of its second byte; for a recognized leading byte it is at least 2 and at most 6. [R50] -/
def Obligations.InstructionLengthFromTwoBytes : Prop :=
  ∀ i : Instr, i.wf = true → ∃ lead tail, encode i = lead :: tail ∧
    (encode i).length = Claims.instrLen lead (tail.headD 0) ∧
    (classify lead ≠ .noShape → 2 ≤ (encode i).length ∧ (encode i).length ≤ 6)

/-- The bytes 89 D9, B9 0C 00, C6 46 4B 0C, 8B 0E 01 0F, A1 FB 09 and A3 FB 09, and the unrecognized byte 90, decode
to their rows with their operands. [R44, R46, R47, R48, R49] -/
def Obligations.SampleWordsDecode : Prop :=
  decode [0x89, 0xD9] = .instr (.mov89Reg 3 1) [] ∧
  decode [0xB9, 0x0C, 0x00] = .instr (.movB9 12) [] ∧
  decode [0xC6, 0x46, 0x4B, 0x0C] = .instr (.movC6Disp8 0 6 75 12) [] ∧
  decode [0x8B, 0x0E, 0x01, 0x0F] = .instr (.mov8BDirect 1 3841) [] ∧
  decode [0xA1, 0xFB, 0x09] = .instr (.movA1 2555) [] ∧
  decode [0xA3, 0xFB, 0x09] = .instr (.movA3 2555) [] ∧
  decode [0x90, 0x89] = .instr (.unrecognized90to9F 0x90) [0x89]

/-- While the pass runs, if the bytes at the cursor decode to a well-formed instruction, the step is that
instruction's exec at that state; nothing is added around it (exec itself moves the cursor past the
instruction's bytes). [R4, R63, R64] -/
def Obligations.StepRunsTheDecodedInstruction : Prop :=
  ∀ (s : State) (i : Instr) (rest : List Byte), s.ended = false → i.wf = true →
    decode s.stream = .instr i rest → step s = exec i s

/-- In every state each of the seven rows of leading byte 88 completes: OFF grows by the row's length, RES is
Decoded with the record, start and length, RECS gains the record and OUT its line and a newline. The source is
the byte register of reg, the destination the ModRM operand of the row; qualified is false. In a state whose
pass has ended the effect of exec is the model's own choice (log entry 19). [R90, R70, R71, R72, R73, R74, R89] -/
def Obligations.Opcode88CompletesWithItsRecord : Prop :=
  ∀ (s : State) (reg rm : Code) (d8 : Byte) (d16 addr : U16),
    exec (.mov88BaseLow reg rm) s = .next (Claims.afterDecoded s ⟨.mov, .memory rm none, .register reg .byte, false⟩ 2) ∧
    exec (.mov88BaseMid reg rm) s = .next (Claims.afterDecoded s ⟨.mov, .memory rm none, .register reg .byte, false⟩ 2) ∧
    exec (.mov88BaseBx reg) s = .next (Claims.afterDecoded s ⟨.mov, .memory 7 none, .register reg .byte, false⟩ 2) ∧
    exec (.mov88Direct reg addr) s = .next (Claims.afterDecoded s ⟨.mov, .directAddress addr, .register reg .byte, false⟩ 4) ∧
    exec (.mov88Disp8 reg rm d8) s = .next (Claims.afterDecoded s ⟨.mov, .memory rm (some (sext16 d8)), .register reg .byte, false⟩ 3) ∧
    exec (.mov88Disp16 reg rm d16) s = .next (Claims.afterDecoded s ⟨.mov, .memory rm (some d16), .register reg .byte, false⟩ 4) ∧
    exec (.mov88Reg reg rm) s = .next (Claims.afterDecoded s ⟨.mov, .register rm .byte, .register reg .byte, false⟩ 2)

/-- In every state each of the seven rows of leading byte 89 completes: OFF grows by the row's length, RES is
Decoded with the record, start and length, RECS gains the record and OUT its line and a newline. The source is
the word register of reg, the destination the ModRM operand of the row; qualified is false. In a state whose
pass has ended the effect of exec is the model's own choice (log entry 19). [R91, R70, R71, R72, R73, R74, R89] -/
def Obligations.Opcode89CompletesWithItsRecord : Prop :=
  ∀ (s : State) (reg rm : Code) (d8 : Byte) (d16 addr : U16),
    exec (.mov89BaseLow reg rm) s = .next (Claims.afterDecoded s ⟨.mov, .memory rm none, .register reg .word, false⟩ 2) ∧
    exec (.mov89BaseMid reg rm) s = .next (Claims.afterDecoded s ⟨.mov, .memory rm none, .register reg .word, false⟩ 2) ∧
    exec (.mov89BaseBx reg) s = .next (Claims.afterDecoded s ⟨.mov, .memory 7 none, .register reg .word, false⟩ 2) ∧
    exec (.mov89Direct reg addr) s = .next (Claims.afterDecoded s ⟨.mov, .directAddress addr, .register reg .word, false⟩ 4) ∧
    exec (.mov89Disp8 reg rm d8) s = .next (Claims.afterDecoded s ⟨.mov, .memory rm (some (sext16 d8)), .register reg .word, false⟩ 3) ∧
    exec (.mov89Disp16 reg rm d16) s = .next (Claims.afterDecoded s ⟨.mov, .memory rm (some d16), .register reg .word, false⟩ 4) ∧
    exec (.mov89Reg reg rm) s = .next (Claims.afterDecoded s ⟨.mov, .register rm .word, .register reg .word, false⟩ 2)

/-- In every state each of the seven rows of leading byte 8A completes: OFF grows by the row's length, RES is
Decoded with the record, start and length, RECS gains the record and OUT its line and a newline. The destination
is the byte register of reg, the source the ModRM operand of the row; qualified is false. In a state whose pass
has ended the effect of exec is the model's own choice (log entry 19). [R92, R70, R71, R72, R73, R74, R89] -/
def Obligations.Opcode8ACompletesWithItsRecord : Prop :=
  ∀ (s : State) (reg rm : Code) (d8 : Byte) (d16 addr : U16),
    exec (.mov8ABaseLow reg rm) s = .next (Claims.afterDecoded s ⟨.mov, .register reg .byte, .memory rm none, false⟩ 2) ∧
    exec (.mov8ABaseMid reg rm) s = .next (Claims.afterDecoded s ⟨.mov, .register reg .byte, .memory rm none, false⟩ 2) ∧
    exec (.mov8ABaseBx reg) s = .next (Claims.afterDecoded s ⟨.mov, .register reg .byte, .memory 7 none, false⟩ 2) ∧
    exec (.mov8ADirect reg addr) s = .next (Claims.afterDecoded s ⟨.mov, .register reg .byte, .directAddress addr, false⟩ 4) ∧
    exec (.mov8ADisp8 reg rm d8) s = .next (Claims.afterDecoded s ⟨.mov, .register reg .byte, .memory rm (some (sext16 d8)), false⟩ 3) ∧
    exec (.mov8ADisp16 reg rm d16) s = .next (Claims.afterDecoded s ⟨.mov, .register reg .byte, .memory rm (some d16), false⟩ 4) ∧
    exec (.mov8AReg reg rm) s = .next (Claims.afterDecoded s ⟨.mov, .register reg .byte, .register rm .byte, false⟩ 2)

/-- In every state each of the seven rows of leading byte 8B completes: OFF grows by the row's length, RES is
Decoded with the record, start and length, RECS gains the record and OUT its line and a newline. The destination
is the word register of reg, the source the ModRM operand of the row; qualified is false. In a state whose pass
has ended the effect of exec is the model's own choice (log entry 19). [R93, R70, R71, R72, R73, R74, R89] -/
def Obligations.Opcode8BCompletesWithItsRecord : Prop :=
  ∀ (s : State) (reg rm : Code) (d8 : Byte) (d16 addr : U16),
    exec (.mov8BBaseLow reg rm) s = .next (Claims.afterDecoded s ⟨.mov, .register reg .word, .memory rm none, false⟩ 2) ∧
    exec (.mov8BBaseMid reg rm) s = .next (Claims.afterDecoded s ⟨.mov, .register reg .word, .memory rm none, false⟩ 2) ∧
    exec (.mov8BBaseBx reg) s = .next (Claims.afterDecoded s ⟨.mov, .register reg .word, .memory 7 none, false⟩ 2) ∧
    exec (.mov8BDirect reg addr) s = .next (Claims.afterDecoded s ⟨.mov, .register reg .word, .directAddress addr, false⟩ 4) ∧
    exec (.mov8BDisp8 reg rm d8) s = .next (Claims.afterDecoded s ⟨.mov, .register reg .word, .memory rm (some (sext16 d8)), false⟩ 3) ∧
    exec (.mov8BDisp16 reg rm d16) s = .next (Claims.afterDecoded s ⟨.mov, .register reg .word, .memory rm (some d16), false⟩ 4) ∧
    exec (.mov8BReg reg rm) s = .next (Claims.afterDecoded s ⟨.mov, .register reg .word, .register rm .word, false⟩ 2)

/-- In every state each of B0 to B7 completes with length 2 and the record of its byte register (code 0 to 7) and
Immediate(sext_16(b), Byte), unqualified; RES, RECS, OUT and OFF are written accordingly. Sign extension of a
byte immediate is the spec's own decision D3 (log entry 10). In a state whose pass has ended the effect of exec
is the model's own choice (log entry 19). [R96, R97, R98, R99, R100, R101, R102, R103] -/
def Obligations.ByteImmediatesToRegistersComplete : Prop :=
  ∀ (s : State) (imm : Byte),
    exec (.movB0 imm) s = .next (Claims.afterDecoded s ⟨.mov, .register 0 .byte, .immediate (sext16 imm) .byte, false⟩ 2) ∧
    exec (.movB1 imm) s = .next (Claims.afterDecoded s ⟨.mov, .register 1 .byte, .immediate (sext16 imm) .byte, false⟩ 2) ∧
    exec (.movB2 imm) s = .next (Claims.afterDecoded s ⟨.mov, .register 2 .byte, .immediate (sext16 imm) .byte, false⟩ 2) ∧
    exec (.movB3 imm) s = .next (Claims.afterDecoded s ⟨.mov, .register 3 .byte, .immediate (sext16 imm) .byte, false⟩ 2) ∧
    exec (.movB4 imm) s = .next (Claims.afterDecoded s ⟨.mov, .register 4 .byte, .immediate (sext16 imm) .byte, false⟩ 2) ∧
    exec (.movB5 imm) s = .next (Claims.afterDecoded s ⟨.mov, .register 5 .byte, .immediate (sext16 imm) .byte, false⟩ 2) ∧
    exec (.movB6 imm) s = .next (Claims.afterDecoded s ⟨.mov, .register 6 .byte, .immediate (sext16 imm) .byte, false⟩ 2) ∧
    exec (.movB7 imm) s = .next (Claims.afterDecoded s ⟨.mov, .register 7 .byte, .immediate (sext16 imm) .byte, false⟩ 2)

/-- In every state each of B8 to BF completes with length 3 and the record of its word register (code 0 to 7) and
the 16-bit Immediate, unqualified; RES, RECS, OUT and OFF are written accordingly. In a state whose pass has
ended the effect of exec is the model's own choice (log entry 19). [R104, R105, R106, R107, R108, R109, R110,
R111] -/
def Obligations.WordImmediatesToRegistersComplete : Prop :=
  ∀ (s : State) (imm : U16),
    exec (.movB8 imm) s = .next (Claims.afterDecoded s ⟨.mov, .register 0 .word, .immediate imm .word, false⟩ 3) ∧
    exec (.movB9 imm) s = .next (Claims.afterDecoded s ⟨.mov, .register 1 .word, .immediate imm .word, false⟩ 3) ∧
    exec (.movBA imm) s = .next (Claims.afterDecoded s ⟨.mov, .register 2 .word, .immediate imm .word, false⟩ 3) ∧
    exec (.movBB imm) s = .next (Claims.afterDecoded s ⟨.mov, .register 3 .word, .immediate imm .word, false⟩ 3) ∧
    exec (.movBC imm) s = .next (Claims.afterDecoded s ⟨.mov, .register 4 .word, .immediate imm .word, false⟩ 3) ∧
    exec (.movBD imm) s = .next (Claims.afterDecoded s ⟨.mov, .register 5 .word, .immediate imm .word, false⟩ 3) ∧
    exec (.movBE imm) s = .next (Claims.afterDecoded s ⟨.mov, .register 6 .word, .immediate imm .word, false⟩ 3) ∧
    exec (.movBF imm) s = .next (Claims.afterDecoded s ⟨.mov, .register 7 .word, .immediate imm .word, false⟩ 3)

/-- In every state each of the seven rows of leading byte C6 completes with its length and the record whose
destination is the ModRM operand and whose source is the byte immediate; qualified is true exactly for the
memory destinations, false for the register; the ignored field appears nowhere. Sign extension of a byte
immediate is the spec's own decision D3 (log entry 10). In a state whose pass has ended the effect of exec is
the model's own choice (log entry 19). [R114, R54, R70, R71, R72, R73, R74, R113, R116] -/
def Obligations.OpcodeC6CompletesWithItsRecord : Prop :=
  ∀ (s : State) (ign rm : Code) (d8 : Byte) (d16 addr : U16) (imm : Byte),
    exec (.movC6BaseLow ign rm imm) s = .next (Claims.afterDecoded s
      ⟨.mov, .memory rm none, .immediate (sext16 imm) .byte, true⟩ 3) ∧
    exec (.movC6BaseMid ign rm imm) s = .next (Claims.afterDecoded s
      ⟨.mov, .memory rm none, .immediate (sext16 imm) .byte, true⟩ 3) ∧
    exec (.movC6BaseBx ign imm) s = .next (Claims.afterDecoded s
      ⟨.mov, .memory 7 none, .immediate (sext16 imm) .byte, true⟩ 3) ∧
    exec (.movC6Direct ign addr imm) s = .next (Claims.afterDecoded s
      ⟨.mov, .directAddress addr, .immediate (sext16 imm) .byte, true⟩ 5) ∧
    exec (.movC6Disp8 ign rm d8 imm) s = .next (Claims.afterDecoded s
      ⟨.mov, .memory rm (some (sext16 d8)), .immediate (sext16 imm) .byte, true⟩ 4) ∧
    exec (.movC6Disp16 ign rm d16 imm) s = .next (Claims.afterDecoded s
      ⟨.mov, .memory rm (some d16), .immediate (sext16 imm) .byte, true⟩ 5) ∧
    exec (.movC6Reg ign rm imm) s = .next (Claims.afterDecoded s
      ⟨.mov, .register rm .byte, .immediate (sext16 imm) .byte, false⟩ 3)

/-- In every state each of the seven rows of leading byte C7 completes with its length and the record whose
destination is the ModRM operand and whose source is the word immediate; qualified is true exactly for the
memory destinations, false for the register; the ignored field appears nowhere. In a state whose pass has ended
the effect of exec is the model's own choice (log entry 19). [R115, R54, R70, R71, R72, R73, R74, R113, R116] -/
def Obligations.OpcodeC7CompletesWithItsRecord : Prop :=
  ∀ (s : State) (ign rm : Code) (d8 : Byte) (d16 addr : U16) (imm : U16),
    exec (.movC7BaseLow ign rm imm) s = .next (Claims.afterDecoded s
      ⟨.mov, .memory rm none, .immediate imm .word, true⟩ 4) ∧
    exec (.movC7BaseMid ign rm imm) s = .next (Claims.afterDecoded s
      ⟨.mov, .memory rm none, .immediate imm .word, true⟩ 4) ∧
    exec (.movC7BaseBx ign imm) s = .next (Claims.afterDecoded s
      ⟨.mov, .memory 7 none, .immediate imm .word, true⟩ 4) ∧
    exec (.movC7Direct ign addr imm) s = .next (Claims.afterDecoded s
      ⟨.mov, .directAddress addr, .immediate imm .word, true⟩ 6) ∧
    exec (.movC7Disp8 ign rm d8 imm) s = .next (Claims.afterDecoded s
      ⟨.mov, .memory rm (some (sext16 d8)), .immediate imm .word, true⟩ 5) ∧
    exec (.movC7Disp16 ign rm d16 imm) s = .next (Claims.afterDecoded s
      ⟨.mov, .memory rm (some d16), .immediate imm .word, true⟩ 6) ∧
    exec (.movC7Reg ign rm imm) s = .next (Claims.afterDecoded s
      ⟨.mov, .register rm .word, .immediate imm .word, false⟩ 4)

/-- In every state A0 and A1 complete with register code 0 as the destination and the direct address as the source,
A2 and A3 with the two exchanged, byte width for A0 and A2 and word width for A1 and A3, length 3, unqualified.
In a state whose pass has ended the effect of exec is the model's own choice (log entry 19). [R118, R119, R120,
R121, R122] -/
def Obligations.AccumulatorMovesComplete : Prop :=
  ∀ (s : State) (addr : U16),
    exec (.movA0 addr) s = .next (Claims.afterDecoded s ⟨.mov, .register 0 .byte, .directAddress addr, false⟩ 3) ∧
    exec (.movA1 addr) s = .next (Claims.afterDecoded s ⟨.mov, .register 0 .word, .directAddress addr, false⟩ 3) ∧
    exec (.movA2 addr) s = .next (Claims.afterDecoded s ⟨.mov, .directAddress addr, .register 0 .byte, false⟩ 3) ∧
    exec (.movA3 addr) s = .next (Claims.afterDecoded s ⟨.mov, .directAddress addr, .register 0 .word, false⟩ 3)

/-- In every state in which the pass runs, each of the eleven unrecognized rows completes: OFF grows by 1, RES is
Unrecognized(start, lead), RECS is unchanged; under HALT FINAL becomes DoneUnrecognized(start, lead), under
SKIP_ONE nothing else changes, under PLACEHOLDER the line PLACEHOLDER_LINE(lead) and a newline are appended to
OUT (its text is a free value, log entry 3). FINAL is the reference sequencer's (R67), the spec's own decision
D13. [R67, R140] -/
def Obligations.UnrecognizedRowsCompleteAsPolicySays : Prop :=
  ∀ (s : State) (lead : Byte), s.final = .running →
    exec (.unrecognized00to7F lead) s = .next (Claims.afterUnrecognized s lead) ∧
    exec (.unrecognized80to87 lead) s = .next (Claims.afterUnrecognized s lead) ∧
    exec (.unrecognized8Cto8F lead) s = .next (Claims.afterUnrecognized s lead) ∧
    exec (.unrecognized90to9F lead) s = .next (Claims.afterUnrecognized s lead) ∧
    exec (.unrecognizedA4toA7 lead) s = .next (Claims.afterUnrecognized s lead) ∧
    exec (.unrecognizedA8toAF lead) s = .next (Claims.afterUnrecognized s lead) ∧
    exec (.unrecognizedC0toC3 lead) s = .next (Claims.afterUnrecognized s lead) ∧
    exec (.unrecognizedC4toC5 lead) s = .next (Claims.afterUnrecognized s lead) ∧
    exec (.unrecognizedC8toCF lead) s = .next (Claims.afterUnrecognized s lead) ∧
    exec (.unrecognizedD0toDF lead) s = .next (Claims.afterUnrecognized s lead) ∧
    exec (.unrecognizedE0toFF lead) s = .next (Claims.afterUnrecognized s lead)

/-- For every row but the unrecognized ones: the stream byte at every offset, the policy and FINAL are as before,
RECS is the old RECS and one record, OUT is the old OUT and the line of that record with its newline, and RES is
Decoded with that record. Nothing stores to memory: every byte of SRC reads as before. In a state whose pass has
ended the effect of exec is the model's own choice (log entry 19). [R18, R20, R24, R29, R64] -/
def Obligations.MovFrame : Prop :=
  ∀ (i : Instr) (s t : State), i.ctorIdx < 62 → exec i s = .next t →
    (∀ a, t.src.read a = s.src.read a) ∧ t.src = s.src ∧ t.policy = s.policy ∧ t.final = s.final ∧
    ∃ r n, t.res = some (.decoded r s.off n) ∧ t.recs = s.recs ++ [r] ∧ t.out = s.out ++ (fmtInstr r ++ [newline])

/-- For the unrecognized rows: the stream byte at every offset, the policy and RECS are as before; OUT is as before
but under PLACEHOLDER, where one line with no newline inside is appended; FINAL is as before unless the pass ran
under HALT. FINAL is the reference sequencer's (R67), the spec's own decision D13 (log entry 15); that exec has
its effect also in a state whose pass has ended, and FINAL keeps its value there, is the model's own choice (log
entry 19). [R18, R29, R67, R140] -/
def Obligations.UnrecognizedFrame : Prop :=
  ∀ (i : Instr) (s t : State), 62 ≤ i.ctorIdx → exec i s = .next t →
    (∀ a, t.src.read a = s.src.read a) ∧ t.src = s.src ∧ t.policy = s.policy ∧ t.recs = s.recs ∧
    (s.policy ≠ .placeholder → t.out = s.out) ∧
    (s.policy = .placeholder → ∃ line : Text, newline ∉ line ∧ t.out = s.out ++ (line ++ [newline])) ∧
    (s.policy ≠ .halt ∨ s.ended = true → t.final = s.final)

/-- Whenever a step answers a next state: SRC (hence LEN and every byte of it) and the policy are unchanged, the old
OUT is a beginning of the new OUT, and the old RECS a beginning of the new RECS. [R3, R9, R12, R18, R29, R36,
R155] -/
def Obligations.LaunchInputsNeverChange : Prop :=
  ∀ s t : State, step s = .next t →
    t.src = s.src ∧ t.src.len = s.src.len ∧ (∀ a, t.src.read a = s.src.read a) ∧ t.policy = s.policy ∧
    s.out <+: t.out ∧ s.recs <+: t.recs

/-- While the pass runs over a well-formed SRC and the leading byte is of shape RM_REG: with no ModRM byte left, or
the displacement or address incomplete, the attempt is TruncatedInstruction with OFF = LEN; otherwise the record
has the register of the ModRM reg field and the operand of mod and r/m at the width of bit 0, ordered by bit 1
of the leading byte, unqualified, and the length is 2 plus the displacement bytes. No other result occurs. FINAL
is the reference sequencer's (R67), the spec's own decision D13. [R38, R39, R46, R76, R77, R89] -/
def Obligations.RmRegStepFromBytes : Prop :=
  ∀ (s : State) (lead : Byte) (after : List Byte), s.final = .running → s.src.wf = true →
    classify lead = .rmReg → s.stream = lead :: after →
    (after = [] → step s = .next (Claims.afterTruncated s lead)) ∧
    (∀ m rest, after = m :: rest →
      match Claims.modRmOperand m (Claims.widthOfBit lead 0) rest with
      | none => step s = .next (Claims.afterTruncated s lead)
      | some (operand, n) =>
        step s = .next (Claims.afterDecoded s
          (if lead.toNat / 2 % 2 = 0
            then ⟨.mov, operand, .register (BitVec.ofNat 3 (m.toNat / 8)) (Claims.widthOfBit lead 0), false⟩
            else ⟨.mov, .register (BitVec.ofNat 3 (m.toNat / 8)) (Claims.widthOfBit lead 0), operand, false⟩) (2 + n)))

/-- While the pass runs over a well-formed SRC and the leading byte is of shape IMM_REG: with w = 0 one byte follows
and gives the sign-extended immediate, length 2; with w = 1 two bytes follow, low byte first, length 3; the
destination is the register of the low three bits at that width, unqualified; where the bytes run out the
attempt is TruncatedInstruction with OFF = LEN. Sign extension of a byte immediate is the spec's own decision
D3. FINAL is the reference sequencer's (R67), the spec's own decision D13. [R41, R47, R84, R95] -/
def Obligations.ImmRegStepFromBytes : Prop :=
  ∀ (s : State) (lead : Byte) (after : List Byte), s.final = .running → s.src.wf = true →
    classify lead = .immReg → s.stream = lead :: after →
    match Claims.immediateBytes (Claims.widthOfBit lead 3) after with
    | none => step s = .next (Claims.afterTruncated s lead)
    | some (value, n) =>
      step s = .next (Claims.afterDecoded s ⟨.mov, .register (BitVec.ofNat 3 lead.toNat) (Claims.widthOfBit lead 3),
        .immediate value (Claims.widthOfBit lead 3), false⟩ (1 + n))

/-- While the pass runs over a well-formed SRC and the leading byte is of shape IMM_MEM: the ModRM byte, the
displacement or address bytes and then the immediate bytes are read in this order; the record has the ModRM
operand as destination and the immediate as source, qualified exactly when the destination is a memory operand;
the reg field is ignored; where any byte is missing the attempt is TruncatedInstruction with OFF = LEN. Sign
extension of a byte immediate is the spec's own decision D3. FINAL is the reference sequencer's (R67), the
spec's own decision D13. [R42, R48, R84, R86, R113, R116] -/
def Obligations.ImmMemStepFromBytes : Prop :=
  ∀ (s : State) (lead : Byte) (after : List Byte), s.final = .running → s.src.wf = true →
    classify lead = .immMem → s.stream = lead :: after →
    (after = [] → step s = .next (Claims.afterTruncated s lead)) ∧
    (∀ m rest, after = m :: rest →
      match Claims.modRmOperand m (Claims.widthOfBit lead 0) rest with
      | none => step s = .next (Claims.afterTruncated s lead)
      | some (operand, n) =>
        match Claims.immediateBytes (Claims.widthOfBit lead 0) (rest.drop n) with
        | none => step s = .next (Claims.afterTruncated s lead)
        | some (value, k) =>
          step s = .next (Claims.afterDecoded s ⟨.mov, operand, .immediate value (Claims.widthOfBit lead 0),
            decide (192 > m.toNat)⟩ (2 + n + k)))

/-- While the pass runs over a well-formed SRC and the leading byte is A0 to A3: two address bytes follow, low byte
first, whatever w is; A0 and A1 have register code 0 as destination, A2 and A3 as source, at the width of bit 0;
unqualified; length 3; with fewer than two bytes left the attempt is TruncatedInstruction with OFF = LEN. FINAL
is the reference sequencer's (R67), the spec's own decision D13. [R42, R49, R83, R118] -/
def Obligations.AccumulatorStepFromBytes : Prop :=
  ∀ (s : State) (lead : Byte) (after : List Byte), s.final = .running → s.src.wf = true →
    0xA0 ≤ lead.toNat → lead.toNat ≤ 0xA3 → s.stream = lead :: after →
    match after with
    | lo :: hi :: _ =>
      step s = .next (Claims.afterDecoded s
        (if lead.toNat < 0xA2
          then ⟨.mov, .register 0 (Claims.widthOfBit lead 0), .directAddress (BitVec.ofNat 16 (lo.toNat + 256 * hi.toNat)), false⟩
          else ⟨.mov, .directAddress (BitVec.ofNat 16 (lo.toNat + 256 * hi.toNat)), .register 0 (Claims.widthOfBit lead 0), false⟩) 3)
    | [_] => step s = .next (Claims.afterTruncated s lead)
    | [] => step s = .next (Claims.afterTruncated s lead)

/-- While the pass runs, SRC well formed and OFF <= LEN: at OFF = LEN the step records EndOfStream(LEN) and FINAL =
DoneOk (exit status 0) and changes nothing else; at any smaller OFF the result of the step is not EndOfStream;
on the empty stream it is the result of the first step after launch. FINAL is the reference sequencer's (R67),
the spec's own decision D13. [R67, R138, R149] -/
def Obligations.EndOfStreamStep : Prop :=
  (∀ s : State, s.final = .running → s.src.wf = true →
    (s.off = s.src.len → step s = .next { s with res := some (.endOfStream s.src.len), final := .doneOk }) ∧
    (s.off < s.src.len → ∀ t start, step s = .next t → t.res ≠ some (.endOfStream start))) ∧
  Final.doneOk.exitsZero = some true ∧
  (∀ policy : Policy, ∃ t, step (State.launch [] policy) = .next t ∧ t.res = some (.endOfStream 0) ∧ t.final = .doneOk)

/-- While the pass runs over a well-formed SRC, with the recognized leading byte lead at OFF, the byte m after it (0
if missing) and n = instr_len(lead, m): if OFF + n <= LEN the step ends in Decoded with length n and OFF + n,
one record and no change of FINAL; if OFF + n > LEN it ends in TruncatedInstruction(OFF, lead) with the cursor
at LEN, FINAL = DoneTruncated, and OUT, RECS, SRC and the policy unchanged. FINAL is the reference sequencer's
(R67), the spec's own decision D13. [R66, R139, R142] -/
def Obligations.FramingProperty : Prop :=
  ∀ (s : State) (lead : Byte), s.final = .running → s.src.wf = true → s.src.read s.off = some lead →
    classify lead ≠ .noShape →
    (s.off + Claims.instrLen lead ((s.src.read (s.off + 1)).getD 0) ≤ s.src.len →
      ∃ r, step s = .next (Claims.afterDecoded s r (Claims.instrLen lead ((s.src.read (s.off + 1)).getD 0)))) ∧
    (s.src.len < s.off + Claims.instrLen lead ((s.src.read (s.off + 1)).getD 0) →
      step s = .next (Claims.afterTruncated s lead))

/-- While the pass runs, if the byte at OFF is of no shape, whatever follows it or does not, the step records
Unrecognized(OFF, lead) with OFF + 1, appends no record, and answers as the policy says. FINAL is the reference
sequencer's (R67), the spec's own decision D13. [R55, R67, R140, R144] -/
def Obligations.UnrecognizedByteStep : Prop :=
  ∀ (s : State) (lead : Byte), s.final = .running → s.src.wf = true → s.src.read s.off = some lead →
    classify lead = .noShape → step s = .next (Claims.afterUnrecognized s lead)

/-- For every step that answers a next state from a state with SRC well formed and OFF <= LEN: Decoded leaves OFF =
start + n with n = instr_len of the two first bytes of the attempt, EndOfStream leaves OFF = start = LEN,
Unrecognized leaves OFF = start + 1, TruncatedInstruction leaves OFF = LEN; start is the OFF of the attempt, and
there is always one of the four results. [R11, R50, R65, R137] -/
def Obligations.CursorAfterEveryAttempt : Prop :=
  ∀ s t : State, cursorInBounds s = true → step s = .next t →
    match t.res with
    | some (.decoded _ start n) => start = s.off ∧ t.off = start + n ∧
        n = Claims.instrLen ((s.src.read s.off).getD 0) ((s.src.read (s.off + 1)).getD 0)
    | some (.endOfStream start) => start = s.off ∧ t.off = start ∧ start = s.src.len
    | some (.unrecognized start lead) => start = s.off ∧ s.src.read s.off = some lead ∧ t.off = start + 1
    | some (.truncatedInstruction start lead) => start = s.off ∧ s.src.read s.off = some lead ∧ t.off = s.src.len
    | none => False

/-- The cursor invariant (SRC a dense byte sequence, OFF <= LEN) holds after every launch; every byte read of the
cursor keeps it and does not decrease OFF; every step that answers a next state keeps it and does not decrease
OFF. [R13] -/
def Obligations.CursorStaysInBounds : Prop :=
  (∀ bytes policy, cursorInBounds (State.launch bytes policy) = true) ∧
  (∀ s : State, cursorInBounds s = true → cursorInBounds (nextByte s).2 = true ∧ s.off ≤ (nextByte s).2.off) ∧
  (∀ s t : State, cursorInBounds s = true → step s = .next t → cursorInBounds t = true ∧ s.off ≤ t.off)

/-- At State.reset and after a launch with any bytes and policy: OUT is the listing of RECS and made of whole lines,
every record can occur, RES agrees with OFF and FINAL, OUT is text, and OFF is within the well-formed SRC.
State.reset is the launch of the empty stream under HALT, the model's own choice (log entry 5); FINAL is the
reference sequencer's, the spec's own decision D13 (log entry 15). [R17, R18, R19, R22, R67, R134] -/
def Obligations.InvariantsHoldAtLaunch : Prop :=
  (outIsListing State.reset = true ∧ recordsFit State.reset = true ∧ statusAgrees State.reset = true ∧
    outIsText State.reset = true ∧ cursorInBounds State.reset = true ∧ OutIsLines State.reset) ∧
  ∀ bytes policy, outIsListing (State.launch bytes policy) = true ∧ recordsFit (State.launch bytes policy) = true ∧
    statusAgrees (State.launch bytes policy) = true ∧ outIsText (State.launch bytes policy) = true ∧
    cursorInBounds (State.launch bytes policy) = true ∧ OutIsLines (State.launch bytes policy)

/-- A step that answers a next state keeps two invariants. First: OUT is the listing of RECS, one line with its
newline per decoded instruction, in instruction order; under PLACEHOLDER that listing is a subsequence of OUT.
Second: OUT is made of whole lines, each the line of a record or the placeholder line of a byte, each with its
newline; the records of these lines, in order, are RECS; and there is a placeholder line only under PLACEHOLDER
(its text is a free value, log entry 3). The lines are the reference sequencer's (R67), the spec's own decision
D13 (log entry 15). [R18, R67, R134, R136] -/
def Obligations.OutStaysTheListingOfRecs : Prop :=
  (∀ s t : State, outIsListing s = true → step s = .next t → outIsListing t = true) ∧
  (∀ s t : State, OutIsLines s → step s = .next t → OutIsLines t)

/-- If every record of RECS can occur by the table of R19 (no immediate destination, no two memory operands, one
width, qualified exactly for an immediate stored to memory, byte immediates sign-extended, base 6 only with a
displacement), so does every record after a step. Sign extension of a byte immediate is the spec's own decision
D3 (log entry 10). [R19, R72, R89, R95, R113, R118, R131] -/
def Obligations.RecordsStayWithinTheShapes : Prop :=
  ∀ s t : State, recordsFit s = true → step s = .next t → recordsFit t = true

/-- From every state with OFF <= LEN over a well-formed SRC, a step that answers a next state leaves: after Decoded,
FINAL running, OFF = start + length with length 2 to 6 and the record last in RECS; after EndOfStream, DoneOk at
OFF = LEN; after TruncatedInstruction, DoneTruncated with the same start and lead and OFF = LEN; after
Unrecognized, a lead of no shape, OFF = start + 1 and DoneUnrecognized exactly under HALT. FINAL is the
reference sequencer's (R67), the spec's own decision D13 (log entry 15). [R17, R65, R67, R137] -/
def Obligations.StatusStaysConsistent : Prop :=
  ∀ s t : State, cursorInBounds s = true → step s = .next t → statusAgrees t = true

/-- From every state in which OUT is text, a step that answers a next state leads to such a state: all bytes are
below 128, and unless the policy is PLACEHOLDER each is a lower-case letter, a digit, a space, a bracket, a
plus, a minus, a comma or the newline. [R8, R134] -/
def Obligations.OutStaysText : Prop :=
  ∀ s t : State, outIsText s = true → step s = .next t → outIsText t = true

/-- For every state and every number of steps: the newlines that OUT gains are as many as the Decoded results among
the results of those steps, plus, under PLACEHOLDER, as many as the Unrecognized ones. No instruction gives two
lines or none, whatever its length. [R136] -/
def Obligations.OneLinePerDecodedResult : Prop :=
  ∀ (s : State) (fuel : Nat),
    (run fuel s).out.count newline =
      s.out.count newline + (results fuel s).countP Claims.isDecoded +
        (if s.policy = .placeholder then (results fuel s).countP Claims.isUnrecognized else 0)

/-- For one attempt of the block (decode_one) over a well-formed SRC: at OFF = LEN it records EndOfStream(LEN) and
changes nothing else; with a recognized leading byte at OFF and OFF + instr_len > LEN it records
TruncatedInstruction(OFF, lead) with OFF = LEN; with a leading byte of no shape it records Unrecognized(OFF,
lead) with OFF + 1. In none of them is anything appended to RECS or OUT or anything else changed. [R64, R138,
R139, R140] -/
def Obligations.FailedAttemptsOfTheBlock : Prop :=
  ∀ s : State, s.src.wf = true →
    (s.off = s.src.len → decodeOne s = { s with res := some (.endOfStream s.src.len) }) ∧
    (∀ lead, s.src.read s.off = some lead → classify lead ≠ .noShape →
      s.src.len < s.off + Claims.instrLen lead ((s.src.read (s.off + 1)).getD 0) →
      decodeOne s = { s with off := s.src.len, res := some (.truncatedInstruction s.off lead) }) ∧
    (∀ lead, s.src.read s.off = some lead → classify lead = .noShape →
      decodeOne s = { s with off := s.off + 1, res := some (.unrecognized s.off lead) })

/-- A step answers a next state if and only if FINAL is Running, stops with passEnded if and only if FINAL has left
Running, and is never refused: no byte sequence and no operand value stops the machine. [R3, R137, R158,
93_implementation_defined.md U12] -/
def Obligations.StepsStopExactlyWhenThePassIsOver : Prop :=
  ∀ s : State, ((∃ t, step s = .next t) ↔ s.final = .running) ∧
    (step s = .fault .passEnded ↔ s.final ≠ .running) ∧ (∀ r, step s ≠ .refused r)

/-- Two running states with the same bytes ahead of the cursor and the same policy, whatever their offsets, earlier
bytes, results and outputs: their steps append the same text and the same records, move the cursor by the same
amount, and give the same result up to the start offset. [R20, R21, R62, R68] -/
def Obligations.AttemptsDependOnBytesAheadOnly : Prop :=
  ∀ s u : State, s.final = .running → u.final = .running → s.stream = u.stream → s.policy = u.policy →
    ∃ s' u' text records n, step s = .next s' ∧ step u = .next u' ∧
      s'.out = s.out ++ text ∧ u'.out = u.out ++ text ∧ s'.recs = s.recs ++ records ∧ u'.recs = u.recs ++ records ∧
      s'.off = s.off + n ∧ u'.off = u.off + n ∧
      s'.res.map (Claims.resultFrom 0) = u'.res.map (Claims.resultFrom 0)

/-- For every state and policy, decode_one with the policy replaced gives what it gives without, with the policy
replaced: same result, same OFF, same records. [R140, R146, 92_eei_decisions.md D2] -/
def Obligations.PolicyDoesNotTouchTheBlock : Prop :=
  ∀ (s : State) (p : Policy), decodeOne { s with policy := p } = { decodeOne s with policy := p }

/-- Take two running states that differ only in SRC, whose bytes ahead are a leading byte C6 or C7, ModRM bytes that
agree in mod and r/m, and the same bytes after: the step of the second is the step of the first but for SRC.
[R54, R117] -/
def Obligations.IgnoredRegFieldHasNoEffect : Prop :=
  ∀ (s t : State) (src' : Memory) (lead m m' : Byte) (rest : List Byte), s.final = .running →
    classify lead = .immMem → s.stream = lead :: m :: rest → src'.bytesFrom s.off = lead :: m' :: rest →
    modOf m = modOf m' → rmOf m = rmOf m' → step s = .next t →
    step { s with src := src' } = .next { t with src := src' }

/-- Register-to-register moves by 88 and 8A, and by 89 and 8B, with reg and rm exchanged, are the same step; for
every register code r, C6 and C7 with mod = 11 and rm = r, whatever the ignored field, give the record of B0+r
and B8+r with the same immediate; 8A, 8B, 88 and 89 with a direct address and reg = 0 give the record of A0, A1,
A2 and A3. [R94, R116, R123] -/
def Obligations.RegisterMovesHaveTwoEncodings : Prop :=
  ∀ (s : State) (a b ign : Code) (v : Byte) (imm addr : U16),
    exec (.mov88Reg a b) s = exec (.mov8AReg b a) s ∧ exec (.mov89Reg a b) s = exec (.mov8BReg b a) s ∧
    Claims.recordsOf (.mov8ADirect 0 addr) = Claims.recordsOf (.movA0 addr) ∧
    Claims.recordsOf (.mov8BDirect 0 addr) = Claims.recordsOf (.movA1 addr) ∧
    Claims.recordsOf (.mov88Direct 0 addr) = Claims.recordsOf (.movA2 addr) ∧
    Claims.recordsOf (.mov89Direct 0 addr) = Claims.recordsOf (.movA3 addr) ∧
    Claims.recordsOf (.movC6Reg ign a v) = Claims.recordsOf (ofImmReg8 a v) ∧
    Claims.recordsOf (.movC7Reg ign a imm) = Claims.recordsOf (ofImmReg16 a imm) ∧
    (encode (ofImmReg8 a v)).head? = some (BitVec.ofNat 8 (0xB0 + a.toNat)) ∧
    (encode (ofImmReg16 a imm)).head? = some (BitVec.ofNat 8 (0xB8 + a.toNat))

/-- Over a well-formed SRC: below LEN, next_byte returns the byte SRC[OFF] and adds exactly 1 to OFF; from LEN on it
returns EndOfStream, changes nothing, and returns EndOfStream again ever after. It changes nothing but OFF.
[R57] -/
def Obligations.CursorContract : Prop :=
  ∀ s : State, s.src.wf = true →
    (s.off < s.src.len → ∃ b, s.src.read s.off = some b ∧ nextByte s = (.byte b, { s with off := s.off + 1 })) ∧
    (s.src.len ≤ s.off → nextByte s = (.endOfStream, s) ∧ nextByte (nextByte s).2 = (.endOfStream, s))

/-- For every mod, rm and width, over a well-formed SRC the resolver of the pseudocode gives the operand and
consumes the bytes that the table of rule R75 says for the bytes ahead; where they run out it raises
TruncatedInstruction, with the cursor at LEN (or left where it stood, if beyond) and nothing else changed. [R60,
R70, R71, R72, R73, R74, R75, R87] -/
def Obligations.ResolverByMode : Prop :=
  ∀ (s : State) (m : Byte) (w : Bool), s.src.wf = true →
    match Claims.modRmOperand m (if w then .word else .byte) s.stream with
    | some (operand, n) => resolveRm (modOf m) (rmOf m) w s = (some operand, { s with off := s.off + n })
    | none => resolveRm (modOf m) (rmOf m) w s = (none, { s with off := max s.off s.src.len })

/-- For every state in which the pass runs over a well-formed SRC, the step that decodes a whole instruction and
runs its meaning gives the same next state as the spec's pseudocode: next_byte, dispatch, the routine of the
shape with its byte reads in order, the result, and the sequencer's answer to it. [R57, R60, R63, R64, R67, R75,
R79, R80, R84] -/
def Obligations.StepRefinesThePseudocode : Prop :=
  ∀ s : State, s.src.wf = true → s.final = .running → step s = .next (iterate s)

/-- Over a well-formed SRC with OFF <= LEN: if decode_one ends with EndOfStream or TruncatedInstruction, calling it
again gives EndOfStream(LEN) and changes nothing else. [R57, R146] -/
def Obligations.AttemptsAfterTheEnd : Prop :=
  ∀ s : State, cursorInBounds s = true →
    (∃ start lead, (decodeOne s).res = some (.endOfStream start) ∨
      (decodeOne s).res = some (.truncatedInstruction start lead)) →
    decodeOne (decodeOne s) = { decodeOne s with res := some (.endOfStream s.src.len) }

/-- From every state with a well-formed SRC and OFF <= LEN, under every policy, running at most LEN - OFF + 1 steps
reaches a state in which FINAL has left Running; and there are at most that many results. [R67, R163] -/
def Obligations.EveryPassEnds : Prop :=
  ∀ s : State, cursorInBounds s = true →
    (run (s.src.len - s.off + 1) s).ended = true ∧
    ∀ fuel, (results fuel s).length ≤ s.src.len - s.off + 1

/-- For every byte sequence: if the pass launched on it under HALT ends DoneOk, the sequence is a concatenation of
encodings of well-formed mov instructions, and RECS and OUT are their records and lines in order. Conversely, on
the concatenation of the encodings of any list of well-formed mov instructions the pass ends DoneOk with exactly
their records. [R66, R158, R161, 92_eei_decisions.md D2] -/
def Obligations.CleanPassMeansConcatenation : Prop :=
  (∀ bytes : List Byte, (runToEnd (State.launch bytes .halt)).final = .doneOk →
    ∃ is : List Instr, (∀ i ∈ is, i.wf = true ∧ i.ctorIdx < 62) ∧ bytes = is.flatMap encode ∧
      (runToEnd (State.launch bytes .halt)).recs = is.flatMap Claims.recordsOf ∧
      (runToEnd (State.launch bytes .halt)).out = listing (is.flatMap Claims.recordsOf)) ∧
  (∀ is : List Instr, (∀ i ∈ is, i.wf = true ∧ i.ctorIdx < 62) →
    (runToEnd (State.launch (is.flatMap encode) .halt)).final = .doneOk ∧
    (runToEnd (State.launch (is.flatMap encode) .halt)).recs = is.flatMap Claims.recordsOf)

/-- Decoded, EndOfStream, TruncatedInstruction and Unrecognized have the codes 0, 1, 2 and 3; DoneOk maps to exit
status zero, DoneTruncated and DoneUnrecognized to a non-zero status, Running to none. Both are the spec's own
choices (D10, D13). [R141, R149] -/
def Obligations.ResultCodesAndExitMapping : Prop :=
  (∀ r st n b, (Result.decoded r st n).code = 0 ∧ (Result.endOfStream st).code = 1 ∧
    (Result.truncatedInstruction st b).code = 2 ∧ (Result.unrecognized st b).code = 3) ∧
  (∀ st b, Final.running.exitsZero = none ∧ Final.doneOk.exitsZero = some true ∧
    (Final.doneTruncated st b).exitsZero = some false ∧ (Final.doneUnrecognized st b).exitsZero = some false)
end

