-- ==== Sys2Proof/Laws/Decode.lean ====
section
/-! SUPPORT. Laws of the decoder and the encoder at the level of formats: fields and bytes, what parses, and the rows
of instructions. -/

namespace Sys2Proof

open Sys2Proof.Machine

theorem modOf_modRm : ∀ (mod : BitVec 2) (reg rm : Code), modOf (modRm mod reg rm) = mod := by decide

theorem regOf_modRm : ∀ (mod : BitVec 2) (reg rm : Code), regOf (modRm mod reg rm) = reg := by decide

theorem rmOf_modRm : ∀ (mod : BitVec 2) (reg rm : Code), rmOf (modRm mod reg rm) = rm := by decide

/-- The three fields are the whole ModRM byte (R39). -/
theorem modRm_fields : ∀ m : Byte, modRm (modOf m) (regOf m) (rmOf m) = m := by decide

theorem le16_bytes16 (v : U16) : le16 (v.extractLsb' 0 8) (v.extractLsb' 8 8) = v := by
  apply BitVec.eq_of_getLsbD_eq
  intro i hi
  simp only [le16, BitVec.getLsbD_append, BitVec.getLsbD_extractLsb']
  by_cases h : i < 8
  · simp [h]
  · have e : 8 + (i - 8) = i := by omega
    have h8 : i - 8 < 8 := by omega
    simp [h, e, h8]

theorem bytes16_le16 (lo hi : Byte) : bytes16 (le16 lo hi) = [lo, hi] := by
  simp only [bytes16, List.cons.injEq, and_true]
  constructor <;> apply BitVec.eq_of_getLsbD_eq <;> intro i hi <;>
    simp only [le16, BitVec.getLsbD_append, BitVec.getLsbD_extractLsb'] <;> simp [hi]

@[simp] theorem take16_bytes16 (v : U16) (rest : List Byte) : take16 (bytes16 v ++ rest) = some (v, rest) := by
  simp [bytes16, take16, le16_bytes16]

/-- The operand sides the resolver's rows allow. -/
def RmForm.ok (f : RmForm) : Bool :=
  match f with
  | .baseLow rm => decide (rm ≤ 3)
  | .baseMid rm => decide (rm = 4 ∨ rm = 5)
  | .baseBx => true
  | .direct _ => true
  | .disp8 _ _ => true
  | .disp16 _ _ => true
  | .register _ => true

/-- The formats an encoding stands for. -/
def Format.ok (f : Format) : Bool :=
  match f with
  | .rmReg _ _ _ form => form.ok
  | .immReg8 _ _ => true
  | .immReg16 _ _ => true
  | .immMem8 _ form _ => form.ok
  | .immMem16 _ form _ => form.ok
  | .memAcc _ _ => true
  | .accMem _ _ => true
  | .noShape lead => decide (classify lead = .noShape)

theorem code_cases_low : ∀ rm : Code, rm ≤ 3 → rm ≠ 6 ∧ rm ≠ 7 := by decide

theorem code_cases_mid : ∀ rm : Code, (rm = 4 ∨ rm = 5) → rm ≠ 6 ∧ rm ≠ 7 ∧ ¬ rm ≤ 3 := by decide

theorem code_cases_rest : ∀ rm : Code, rm ≠ 6 → rm ≠ 7 → ¬ rm ≤ 3 → rm = 4 ∨ rm = 5 := by decide

theorem mod_eq_zero : ∀ mod : BitVec 2, mod ≠ 3 → mod ≠ 1 → mod ≠ 2 → mod = 0 := by decide

/-- An operand side is read back from its bytes, and its `reg` field with it. -/
theorem takeForm_bytes (f : RmForm) (hf : f.ok = true) (reg : Code) (rest : List Byte) :
    ∃ m tail, f.bytes reg ++ rest = m :: tail ∧ regOf m = reg ∧
      takeForm (modOf m) (rmOf m) tail = some (f, rest) := by
  cases f with
  | baseLow rm =>
    have h3 : rm ≤ 3 := by simpa [RmForm.ok] using hf
    have h := code_cases_low rm h3
    refine ⟨_, _, rfl, regOf_modRm .., ?_⟩
    rw [modOf_modRm, rmOf_modRm, takeForm, if_neg (by decide), if_neg (by decide), if_neg (by decide), if_neg h.1,
      if_neg h.2, if_pos h3]; rfl
  | baseMid rm =>
    have h := code_cases_mid rm (by simpa [RmForm.ok] using hf)
    refine ⟨_, _, rfl, regOf_modRm .., ?_⟩
    rw [modOf_modRm, rmOf_modRm, takeForm, if_neg (by decide), if_neg (by decide), if_neg (by decide), if_neg h.1,
      if_neg h.2.1, if_neg h.2.2]; rfl
  | baseBx => exact ⟨_, _, rfl, regOf_modRm .., by rw [modOf_modRm, rmOf_modRm]; simp [takeForm]⟩
  | direct addr => exact ⟨_, _, rfl, regOf_modRm .., by rw [modOf_modRm, rmOf_modRm]; simp [takeForm]⟩
  | disp8 rm disp => exact ⟨_, _, rfl, regOf_modRm .., by rw [modOf_modRm, rmOf_modRm]; simp [takeForm, take8]⟩
  | disp16 rm disp => exact ⟨_, _, rfl, regOf_modRm .., by rw [modOf_modRm, rmOf_modRm]; simp [takeForm]⟩
  | register rm => exact ⟨_, _, rfl, regOf_modRm .., by rw [modOf_modRm, rmOf_modRm]; simp [takeForm]⟩

/-- What `take8` took. -/
theorem take8_eq_some {bs : List Byte} {v : Byte} {rest : List Byte} (h : take8 bs = some (v, rest)) :
    bs = v :: rest := by
  cases bs with
  | nil => simp [take8] at h
  | cons b bs => simp [take8] at h; simp [h]

/-- What `take16` took. -/
theorem take16_eq_some {bs : List Byte} {v : U16} {rest : List Byte} (h : take16 bs = some (v, rest)) :
    bs = bytes16 v ++ rest := by
  match bs, h with
  | lo :: hi :: tail, h =>
    simp only [take16, Option.some.injEq, Prod.mk.injEq] at h
    obtain ⟨rfl, rfl⟩ := h
    simp [bytes16_le16]

/-- What `takeForm` took, with the ModRM byte before it. -/
theorem takeForm_eq_some {m : Byte} {bs rest : List Byte} {f : RmForm}
    (h : takeForm (modOf m) (rmOf m) bs = some (f, rest)) :
    f.ok = true ∧ m :: bs = f.bytes (regOf m) ++ rest := by
  have hm := modRm_fields m
  generalize modOf m = mod at *
  generalize rmOf m = rm at *
  generalize regOf m = reg at *
  subst hm
  unfold takeForm at h
  split at h
  case isTrue h3 =>
    simp only [Option.some.injEq, Prod.mk.injEq] at h
    obtain ⟨rfl, rfl⟩ := h
    subst h3
    exact ⟨rfl, rfl⟩
  split at h
  case isTrue h1 =>
    simp only [Option.map_eq_some_iff, Prod.mk.injEq] at h
    obtain ⟨⟨v, t⟩, hv, rfl, rfl⟩ := h
    subst h1
    exact ⟨rfl, by rw [take8_eq_some hv]; rfl⟩
  split at h
  case isTrue h2 =>
    simp only [Option.map_eq_some_iff, Prod.mk.injEq] at h
    obtain ⟨⟨v, t⟩, hv, rfl, rfl⟩ := h
    subst h2
    exact ⟨rfl, by rw [take16_eq_some hv]; rfl⟩
  case isFalse h3 h1 h2 =>
  have h0 : mod = 0 := mod_eq_zero mod h3 h1 h2
  subst h0
  split at h
  case isTrue h6 =>
    simp only [Option.map_eq_some_iff, Prod.mk.injEq] at h
    obtain ⟨⟨v, t⟩, hv, rfl, rfl⟩ := h
    subst h6
    exact ⟨rfl, by rw [take16_eq_some hv]; rfl⟩
  split at h
  case isTrue h7 =>
    simp only [Option.some.injEq, Prod.mk.injEq] at h
    obtain ⟨rfl, rfl⟩ := h
    subst h7
    exact ⟨rfl, rfl⟩
  split at h
  case isTrue hl =>
    simp only [Option.some.injEq, Prod.mk.injEq] at h
    obtain ⟨rfl, rfl⟩ := h
    exact ⟨by simpa [RmForm.ok] using hl, rfl⟩
  case isFalse h6 h7 hl =>
    simp only [Option.some.injEq, Prod.mk.injEq] at h
    obtain ⟨rfl, rfl⟩ := h
    exact ⟨by simpa [RmForm.ok] using code_cases_rest rm h6 h7 hl, rfl⟩

/-- The leading bytes of shape RM_REG, by their fields (R38). -/
theorem lead_rmReg : ∀ d w : Bool, let lead : Byte := 0b100010#6 ++ BitVec.ofBool d ++ BitVec.ofBool w
    classify lead = .rmReg ∧ dBit lead = d ∧ wBit lead = w := by decide

/-- The leading bytes of shape IMM_REG, by their fields (R41). -/
theorem lead_immReg : ∀ (w : Bool) (reg : Code), let lead : Byte := 0b1011#4 ++ BitVec.ofBool w ++ reg
    classify lead = .immReg ∧ wBitImmReg lead = w ∧ leadReg lead = reg := by decide

/-- The leading bytes of shape IMM_MEM, by their field (R42). -/
theorem lead_immMem : ∀ w : Bool, let lead : Byte := 0b1100011#7 ++ BitVec.ofBool w
    classify lead = .immMem ∧ wBit lead = w := by decide

/-- The leading bytes of shape MEM_ACC, by their field (R42). -/
theorem lead_memAcc : ∀ w : Bool, let lead : Byte := 0b1010000#7 ++ BitVec.ofBool w
    classify lead = .memAcc ∧ wBit lead = w := by decide

/-- The leading bytes of shape ACC_MEM, by their field (R42). -/
theorem lead_accMem : ∀ w : Bool, let lead : Byte := 0b1010001#7 ++ BitVec.ofBool w
    classify lead = .accMem ∧ wBit lead = w := by decide

/-- A recognized leading byte is its pattern with its fields. -/
theorem lead_of_classify : ∀ lead : Byte,
    (classify lead = .rmReg → 0b100010#6 ++ BitVec.ofBool (dBit lead) ++ BitVec.ofBool (wBit lead) = lead) ∧
    (classify lead = .immReg → 0b1011#4 ++ BitVec.ofBool (wBitImmReg lead) ++ leadReg lead = lead) ∧
    (classify lead = .immMem → 0b1100011#7 ++ BitVec.ofBool (wBit lead) = lead) ∧
    (classify lead = .memAcc → 0b1010000#7 ++ BitVec.ofBool (wBit lead) = lead) ∧
    (classify lead = .accMem → 0b1010001#7 ++ BitVec.ofBool (wBit lead) = lead) := by decide

/-- A format is read back from its bytes, whatever follows. -/
theorem parse_bytes (f : Format) (hf : f.ok = true) (rest : List Byte) :
    ∃ lead tail, f.bytes ++ rest = lead :: tail ∧ parse lead tail = some (f, rest) := by
  cases f with
  | rmReg d w reg form =>
    obtain ⟨m, tail, hb, hr, ht⟩ := takeForm_bytes form hf reg rest
    have key : ∀ lead, classify lead = .rmReg ∧ dBit lead = d ∧ wBit lead = w →
        parse lead (m :: tail) = some (.rmReg d w reg form, rest) := by
      rintro lead ⟨hc, hd, hw⟩; simp [parse, hc, hd, hw, take8, hr, ht]
    exact ⟨_, _, congrArg (_ :: ·) hb, key _ (lead_rmReg d w)⟩
  | immReg8 reg imm =>
    have key : ∀ lead, classify lead = .immReg ∧ wBitImmReg lead = false ∧ leadReg lead = reg →
        parse lead (imm :: rest) = some (.immReg8 reg imm, rest) := by
      rintro lead ⟨hc, hw, hr⟩; simp [parse, hc, hw, hr, take8]
    exact ⟨_, _, rfl, key _ (lead_immReg false reg)⟩
  | immReg16 reg imm =>
    have key : ∀ lead, classify lead = .immReg ∧ wBitImmReg lead = true ∧ leadReg lead = reg →
        parse lead (bytes16 imm ++ rest) = some (.immReg16 reg imm, rest) := by
      rintro lead ⟨hc, hw, hr⟩; simp [parse, hc, hw, hr]
    exact ⟨_, _, rfl, key _ (lead_immReg true reg)⟩
  | immMem8 ign form imm =>
    obtain ⟨m, tail, hb, hr, ht⟩ := takeForm_bytes form hf ign (imm :: rest)
    have key : ∀ lead, classify lead = .immMem ∧ wBit lead = false →
        parse lead (m :: tail) = some (.immMem8 ign form imm, rest) := by
      rintro lead ⟨hc, hw⟩; simp [parse, hc, hw, take8, hr, ht]
    exact ⟨_, _, by rw [← hb]; simp [Format.bytes], key _ (lead_immMem false)⟩
  | immMem16 ign form imm =>
    obtain ⟨m, tail, hb, hr, ht⟩ := takeForm_bytes form hf ign (bytes16 imm ++ rest)
    have key : ∀ lead, classify lead = .immMem ∧ wBit lead = true →
        parse lead (m :: tail) = some (.immMem16 ign form imm, rest) := by
      rintro lead ⟨hc, hw⟩; simp [parse, hc, hw, take8, hr, ht]
    exact ⟨_, _, by rw [← hb]; simp [Format.bytes], key _ (lead_immMem true)⟩
  | memAcc w addr =>
    have key : ∀ lead, classify lead = .memAcc ∧ wBit lead = w →
        parse lead (bytes16 addr ++ rest) = some (.memAcc w addr, rest) := by
      rintro lead ⟨hc, hw⟩; simp [parse, hc, hw]
    exact ⟨_, _, rfl, key _ (lead_memAcc w)⟩
  | accMem w addr =>
    have key : ∀ lead, classify lead = .accMem ∧ wBit lead = w →
        parse lead (bytes16 addr ++ rest) = some (.accMem w addr, rest) := by
      rintro lead ⟨hc, hw⟩; simp [parse, hc, hw]
    exact ⟨_, _, rfl, key _ (lead_accMem w)⟩
  | noShape lead =>
    have hc : classify lead = .noShape := by simpa [Format.ok] using hf
    exact ⟨_, _, rfl, by simp [parse, hc]⟩

/-- What `parse` took, with the leading byte before it. -/
theorem parse_eq_some {lead : Byte} {bs rest : List Byte} {f : Format} (h : parse lead bs = some (f, rest)) :
    f.ok = true ∧ lead :: bs = f.bytes ++ rest := by
  obtain ⟨h1, h2, h3, h4, h5⟩ := lead_of_classify lead
  unfold parse at h
  split at h
  case h_1 hc =>
    simp only [Option.bind_eq_some_iff, Option.map_eq_some_iff, Prod.mk.injEq] at h
    obtain ⟨⟨m, t⟩, hm, ⟨g, u⟩, hg, rfl, rfl⟩ := h
    obtain ⟨hok, hb⟩ := takeForm_eq_some hg
    exact ⟨hok, by rw [take8_eq_some hm, hb]; simp [Format.bytes, h1 hc]⟩
  case h_2 hc =>
    have hl := h2 hc
    cases hw : wBitImmReg lead <;> rw [hw] at hl h <;>
      simp only [Bool.false_eq_true, if_false, if_true, Option.map_eq_some_iff, Prod.mk.injEq] at h <;>
      obtain ⟨⟨v, t⟩, hv, rfl, rfl⟩ := h
    · exact ⟨rfl, by rw [take8_eq_some hv]; exact congrArg (· :: _) hl.symm⟩
    · exact ⟨rfl, by rw [take16_eq_some hv]; exact congrArg (· :: _) hl.symm⟩
  case h_3 hc =>
    have hl := h3 hc
    simp only [Option.bind_eq_some_iff] at h
    obtain ⟨⟨m, t⟩, hm, ⟨g, u⟩, hg, h⟩ := h
    obtain ⟨hok, hb⟩ := takeForm_eq_some hg
    cases hw : wBit lead <;> rw [hw] at hl h <;>
      simp only [Bool.false_eq_true, if_false, if_true, Option.map_eq_some_iff, Prod.mk.injEq] at h <;>
      obtain ⟨⟨v, u⟩, hv, rfl, rfl⟩ := h
    · exact ⟨hok, by rw [take8_eq_some hm, hb, take8_eq_some hv, Format.bytes, hl]; simp⟩
    · exact ⟨hok, by rw [take8_eq_some hm, hb, take16_eq_some hv, Format.bytes, hl]; simp⟩
  case h_4 hc =>
    simp only [Option.map_eq_some_iff, Prod.mk.injEq] at h
    obtain ⟨⟨v, t⟩, hv, rfl, rfl⟩ := h
    exact ⟨rfl, by rw [take16_eq_some hv]; simp [Format.bytes, h4 hc]⟩
  case h_5 hc =>
    simp only [Option.map_eq_some_iff, Prod.mk.injEq] at h
    obtain ⟨⟨v, t⟩, hv, rfl, rfl⟩ := h
    exact ⟨rfl, by rw [take16_eq_some hv]; simp [Format.bytes, h5 hc]⟩
  case h_6 hc =>
    simp only [Option.some.injEq, Prod.mk.injEq] at h
    obtain ⟨rfl, rfl⟩ := h
    simp [Format.ok, Format.bytes, hc]

/-- The unrecognized rows are the leading bytes without a shape (R55). -/
theorem ofNoShape_spec : ∀ lead : Byte, classify lead = .noShape →
    (ofNoShape lead).format = .noShape lead ∧ (ofNoShape lead).wf = true := by decide

theorem noShape_of_range : ∀ lead : Byte,
    (lead ≤ 0x7F → classify lead = .noShape ∧ ofNoShape lead = .unrecognized00to7F lead) ∧
    (0x80 ≤ lead ∧ lead ≤ 0x87 → classify lead = .noShape ∧ ofNoShape lead = .unrecognized80to87 lead) ∧
    (0x8C ≤ lead ∧ lead ≤ 0x8F → classify lead = .noShape ∧ ofNoShape lead = .unrecognized8Cto8F lead) ∧
    (0x90 ≤ lead ∧ lead ≤ 0x9F → classify lead = .noShape ∧ ofNoShape lead = .unrecognized90to9F lead) ∧
    (0xA4 ≤ lead ∧ lead ≤ 0xA7 → classify lead = .noShape ∧ ofNoShape lead = .unrecognizedA4toA7 lead) ∧
    (0xA8 ≤ lead ∧ lead ≤ 0xAF → classify lead = .noShape ∧ ofNoShape lead = .unrecognizedA8toAF lead) ∧
    (0xC0 ≤ lead ∧ lead ≤ 0xC3 → classify lead = .noShape ∧ ofNoShape lead = .unrecognizedC0toC3 lead) ∧
    (0xC4 ≤ lead ∧ lead ≤ 0xC5 → classify lead = .noShape ∧ ofNoShape lead = .unrecognizedC4toC5 lead) ∧
    (0xC8 ≤ lead ∧ lead ≤ 0xCF → classify lead = .noShape ∧ ofNoShape lead = .unrecognizedC8toCF lead) ∧
    (0xD0 ≤ lead ∧ lead ≤ 0xDF → classify lead = .noShape ∧ ofNoShape lead = .unrecognizedD0toDF lead) ∧
    (0xE0 ≤ lead → classify lead = .noShape ∧ ofNoShape lead = .unrecognizedE0toFF lead) := by decide

/-- A register code is one of eight. -/
theorem code_eq : ∀ r : Code, r = 0 ∨ r = 1 ∨ r = 2 ∨ r = 3 ∨ r = 4 ∨ r = 5 ∨ r = 6 ∨ r = 7 := by decide

/-- The row of a format carries that format and is well formed. -/
theorem ofFormat_spec (f : Format) (hf : f.ok = true) : (Instr.ofFormat f).format = f ∧ (Instr.ofFormat f).wf = true := by
  cases f with
  | rmReg d w reg form => cases d <;> cases w <;> cases form <;> exact ⟨rfl, hf⟩
  | immReg8 reg imm => obtain rfl | rfl | rfl | rfl | rfl | rfl | rfl | rfl := code_eq reg <;> exact ⟨rfl, rfl⟩
  | immReg16 reg imm => obtain rfl | rfl | rfl | rfl | rfl | rfl | rfl | rfl := code_eq reg <;> exact ⟨rfl, rfl⟩
  | immMem8 ign form imm => cases form <;> exact ⟨rfl, hf⟩
  | immMem16 ign form imm => cases form <;> exact ⟨rfl, hf⟩
  | memAcc w addr => cases w <;> exact ⟨rfl, rfl⟩
  | accMem w addr => cases w <;> exact ⟨rfl, rfl⟩
  | noShape lead => exact ofNoShape_spec lead (by simpa [Format.ok] using hf)

theorem unrecognized_spec {lead : Byte} {i : Instr} (h : classify lead = .noShape ∧ ofNoShape lead = i) :
    (Format.noShape lead).ok = true ∧ Instr.ofFormat (.noShape lead) = i :=
  ⟨by simp [Format.ok, h.1], h.2⟩

/-- A well-formed instruction has a format an encoding stands for, and is the row of that format. -/
theorem format_spec (i : Instr) (hi : i.wf = true) : i.format.ok = true ∧ Instr.ofFormat i.format = i := by
  cases i
  all_goals first
    | exact ⟨hi, rfl⟩
    | exact ⟨rfl, rfl⟩
    | (rename_i lead
       first
       | exact unrecognized_spec ((noShape_of_range lead).1 (by simpa [Instr.wf] using hi))
       | exact unrecognized_spec ((noShape_of_range lead).2.1 (by simpa [Instr.wf] using hi))
       | exact unrecognized_spec ((noShape_of_range lead).2.2.1 (by simpa [Instr.wf] using hi))
       | exact unrecognized_spec ((noShape_of_range lead).2.2.2.1 (by simpa [Instr.wf] using hi))
       | exact unrecognized_spec ((noShape_of_range lead).2.2.2.2.1 (by simpa [Instr.wf] using hi))
       | exact unrecognized_spec ((noShape_of_range lead).2.2.2.2.2.1 (by simpa [Instr.wf] using hi))
       | exact unrecognized_spec ((noShape_of_range lead).2.2.2.2.2.2.1 (by simpa [Instr.wf] using hi))
       | exact unrecognized_spec ((noShape_of_range lead).2.2.2.2.2.2.2.1 (by simpa [Instr.wf] using hi))
       | exact unrecognized_spec ((noShape_of_range lead).2.2.2.2.2.2.2.2.1 (by simpa [Instr.wf] using hi))
       | exact unrecognized_spec ((noShape_of_range lead).2.2.2.2.2.2.2.2.2.1 (by simpa [Instr.wf] using hi))
       | exact unrecognized_spec ((noShape_of_range lead).2.2.2.2.2.2.2.2.2.2 (by simpa [Instr.wf] using hi)))

/-- Masking two bytes side by side is masking each. -/
theorem append_and_eq_iff (b0 b1 : Byte) (mask value : U16) :
    (b0 ++ b1) &&& mask = value ↔
      b0 &&& mask.extractLsb' 8 8 = value.extractLsb' 8 8 ∧ b1 &&& mask.extractLsb' 0 8 = value.extractLsb' 0 8 := by
  have hb : ∀ i, (b0 ++ b1 : U16).getLsbD i = if i < 8 then b1.getLsbD i else b0.getLsbD (i - 8) :=
    fun i => BitVec.getLsbD_append
  constructor
  · rintro rfl
    constructor <;> apply BitVec.eq_of_getLsbD_eq <;> intro i hi <;>
      simp only [BitVec.getLsbD_and, BitVec.getLsbD_extractLsb', hb] <;> simp [hi]
  · rintro ⟨h1, h2⟩
    apply BitVec.eq_of_getLsbD_eq
    intro i hi
    rw [BitVec.getLsbD_and, hb]
    by_cases h : i < 8
    · have := congrArg (fun v => BitVec.getLsbD v i) h2
      simpa [h] using this
    · have := congrArg (fun v => BitVec.getLsbD v (i - 8)) h1
      have e : 8 + (i - 8) = i := by omega
      have e2 : i - 8 < 8 := by omega
      simpa [h, e, e2] using this

end Sys2Proof
end

