-- ==== Sys2Proof/Laws/Memory.lean ====
section
/-! SUPPORT. Laws of SRC: reading, the canonical form, and what the cursor still has before it. -/

namespace Sys2Proof.Machine

open Sys2Proof

/-- A dense run of pairs that starts at `k` reads, at `k + j`, its byte number `j`. -/
theorem Memory.read_of_denseFrom (m : Memory) (k a : Nat) (h : Memory.denseFrom k m = true) :
    Memory.read m a = if k ≤ a then (m.map Prod.snd)[a - k]? else none := by
  induction m generalizing k with
  | nil => simp [Memory.read]
  | cons c m ih =>
    obtain ⟨x, b⟩ := c
    simp only [Memory.denseFrom, Bool.and_eq_true, decide_eq_true_eq] at h
    obtain ⟨rfl, h⟩ := h
    simp only [Memory.read, ih _ h]
    by_cases hx : x = a
    · subst hx; simp
    · by_cases hl : x ≤ a
      · have e : a - x = (a - (x + 1)) + 1 := by omega
        have hl' : x + 1 ≤ a := by omega
        simp [hx, hl, hl', e]
      · have hl' : ¬ x + 1 ≤ a := by omega
        simp [hx, hl, hl']

/-- In canonical form, `SRC[a]` is byte number `a`. -/
theorem Memory.read_eq (m : Memory) (h : m.wf = true) (a : Nat) : m.read a = (m.map Prod.snd)[a]? := by
  simpa using Memory.read_of_denseFrom m 0 a h

/-- A byte stands exactly at the offsets below LEN (R12). -/
theorem Memory.read_eq_none_iff (m : Memory) (h : m.wf = true) (a : Nat) : m.read a = none ↔ m.len ≤ a := by
  simp [Memory.read_eq m h, Memory.len]

/-- In canonical form, what the cursor has before it is the suffix of the byte sequence. -/
theorem Memory.bytesFrom_eq (m : Memory) (h : m.wf = true) (a : Nat) :
    m.bytesFrom a = (m.map Prod.snd).drop a := by
  have key : ∀ fuel a, m.len ≤ a + fuel → Memory.readRun m fuel a = (m.map Prod.snd).drop a := by
    intro fuel
    induction fuel with
    | zero =>
      intro a ha
      simp only [Memory.readRun]
      rw [List.drop_eq_nil_of_le]; simpa [Memory.len] using ha
    | succ fuel ih =>
      intro a ha
      simp only [Memory.readRun, Memory.read_eq m h]
      cases hr : (m.map Prod.snd)[a]? with
      | none => simpa using (List.drop_eq_nil_of_le (List.getElem?_eq_none_iff.mp hr)).symm
      | some b =>
        simp only [ih (a + 1) (by omega)]
        obtain ⟨hlt, rfl⟩ := List.getElem?_eq_some_iff.mp hr
        exact (List.drop_eq_getElem_cons hlt).symm
  exact key m.len a (by omega)

/-- How many bytes the cursor has before it. -/
theorem Memory.length_bytesFrom (m : Memory) (h : m.wf = true) (a : Nat) : (m.bytesFrom a).length = m.len - a := by
  simp [Memory.bytesFrom_eq m h, Memory.len]

theorem Memory.denseFrom_cellsFrom (k : Nat) (bs : List Byte) :
    Memory.denseFrom k (Memory.cellsFrom k bs) = true := by
  induction bs generalizing k with
  | nil => rfl
  | cons b bs ih => simp [Memory.cellsFrom, Memory.denseFrom, ih]

/-- The sequence the host hands over is in canonical form. -/
@[simp] theorem Memory.wf_ofBytes (bs : List Byte) : (Memory.ofBytes bs).wf = true :=
  Memory.denseFrom_cellsFrom 0 bs

@[simp] theorem Memory.map_snd_cellsFrom (k : Nat) (bs : List Byte) :
    (Memory.cellsFrom k bs).map Prod.snd = bs := by
  induction bs generalizing k with
  | nil => rfl
  | cons b bs ih => simp [Memory.cellsFrom, ih]

@[simp] theorem Memory.map_snd_ofBytes (bs : List Byte) : (Memory.ofBytes bs).map Prod.snd = bs :=
  Memory.map_snd_cellsFrom 0 bs

@[simp] theorem Memory.len_ofBytes (bs : List Byte) : (Memory.ofBytes bs).len = bs.length := by
  calc (Memory.ofBytes bs).length = ((Memory.ofBytes bs).map Prod.snd).length := (List.length_map ..).symm
    _ = bs.length := by rw [Memory.map_snd_ofBytes]

/-- Placing bytes keeps the canonical form: every memory operation of the model does. -/
@[simp] theorem Memory.wf_place (m : Memory) (a : Nat) (bs : List Byte) : (m.place a bs).wf = true := by
  simp [Memory.place]

/-- Memory at reset is in canonical form. -/
theorem Memory.wf_reset : State.reset.src.wf = true := rfl

/-- Two sequences in canonical form with the same bytes are equal data. -/
theorem Memory.ext_of_wf (m n : Memory) (hm : m.wf = true) (hn : n.wf = true)
    (h : m.map Prod.snd = n.map Prod.snd) : m = n := by
  have key : ∀ (k : Nat) (m n : Memory), Memory.denseFrom k m = true → Memory.denseFrom k n = true →
      m.map Prod.snd = n.map Prod.snd → m = n := by
    intro k m
    induction m generalizing k with
    | nil => intro n _ _ h; exact (List.map_eq_nil_iff.mp h.symm).symm
    | cons c m ih =>
      intro n hm hn h
      cases n with
      | nil => simp at h
      | cons d n =>
        obtain ⟨x, b⟩ := c; obtain ⟨y, e⟩ := d
        simp only [Memory.denseFrom, Bool.and_eq_true, decide_eq_true_eq] at hm hn
        simp only [List.map_cons, List.cons.injEq] at h
        obtain ⟨rfl, hm⟩ := hm; obtain ⟨rfl, hn⟩ := hn; obtain ⟨rfl, h⟩ := h
        rw [ih _ n hm hn h]
  exact key 0 m n hm hn h

end Sys2Proof.Machine
end

