-- ==== Sys2Proof/Laws/State.lean ====
section
/-! SUPPORT. One lemma per field and update of the state, so that no later proof unfolds a record update; and what the
shared operations that end an attempt do, said once. -/

namespace Sys2Proof.Machine

open Sys2Proof

variable (s : State)

@[simp] theorem State.setOff_src (off : Nat) : (s.setOff off).src = s.src := rfl
@[simp] theorem State.setOff_policy (off : Nat) : (s.setOff off).policy = s.policy := rfl
@[simp] theorem State.setOff_off (off : Nat) : (s.setOff off).off = off := rfl
@[simp] theorem State.setOff_res (off : Nat) : (s.setOff off).res = s.res := rfl
@[simp] theorem State.setOff_out (off : Nat) : (s.setOff off).out = s.out := rfl
@[simp] theorem State.setOff_recs (off : Nat) : (s.setOff off).recs = s.recs := rfl
@[simp] theorem State.setOff_final (off : Nat) : (s.setOff off).final = s.final := rfl

@[simp] theorem State.setRes_src (r : Result) : (s.setRes r).src = s.src := rfl
@[simp] theorem State.setRes_policy (r : Result) : (s.setRes r).policy = s.policy := rfl
@[simp] theorem State.setRes_off (r : Result) : (s.setRes r).off = s.off := rfl
@[simp] theorem State.setRes_res (r : Result) : (s.setRes r).res = some r := rfl
@[simp] theorem State.setRes_out (r : Result) : (s.setRes r).out = s.out := rfl
@[simp] theorem State.setRes_recs (r : Result) : (s.setRes r).recs = s.recs := rfl
@[simp] theorem State.setRes_final (r : Result) : (s.setRes r).final = s.final := rfl

@[simp] theorem State.pushRec_src (record : DecodedInstruction) : (s.pushRec record).src = s.src := rfl
@[simp] theorem State.pushRec_policy (record : DecodedInstruction) : (s.pushRec record).policy = s.policy := rfl
@[simp] theorem State.pushRec_off (record : DecodedInstruction) : (s.pushRec record).off = s.off := rfl
@[simp] theorem State.pushRec_res (record : DecodedInstruction) : (s.pushRec record).res = s.res := rfl
@[simp] theorem State.pushRec_out (record : DecodedInstruction) : (s.pushRec record).out = s.out := rfl
@[simp] theorem State.pushRec_recs (record : DecodedInstruction) : (s.pushRec record).recs = s.recs ++ [record] := rfl
@[simp] theorem State.pushRec_final (record : DecodedInstruction) : (s.pushRec record).final = s.final := rfl

@[simp] theorem State.emit_src (t : Text) : (s.emit t).src = s.src := rfl
@[simp] theorem State.emit_policy (t : Text) : (s.emit t).policy = s.policy := rfl
@[simp] theorem State.emit_off (t : Text) : (s.emit t).off = s.off := rfl
@[simp] theorem State.emit_res (t : Text) : (s.emit t).res = s.res := rfl
@[simp] theorem State.emit_out (t : Text) : (s.emit t).out = s.out ++ t ++ [newline] := rfl
@[simp] theorem State.emit_recs (t : Text) : (s.emit t).recs = s.recs := rfl
@[simp] theorem State.emit_final (t : Text) : (s.emit t).final = s.final := rfl

@[simp] theorem State.finish_src (f : Final) : (s.finish f).src = s.src := by
  unfold State.finish; split <;> rfl
@[simp] theorem State.finish_policy (f : Final) : (s.finish f).policy = s.policy := by
  unfold State.finish; split <;> rfl
@[simp] theorem State.finish_off (f : Final) : (s.finish f).off = s.off := by
  unfold State.finish; split <;> rfl
@[simp] theorem State.finish_res (f : Final) : (s.finish f).res = s.res := by
  unfold State.finish; split <;> rfl
@[simp] theorem State.finish_out (f : Final) : (s.finish f).out = s.out := by
  unfold State.finish; split <;> rfl
@[simp] theorem State.finish_recs (f : Final) : (s.finish f).recs = s.recs := by
  unfold State.finish; split <;> rfl

/-- Running is the one status that `finish` replaces. -/
theorem State.finish_of_running (f : Final) (h : s.final = .running) : s.finish f = { s with final := f } := by
  simp [State.finish, h]

/-- FINAL is sticky (R67, D13). -/
theorem State.finish_of_ended (f : Final) (h : s.ended = true) : s.finish f = s := by
  unfold State.ended at h; unfold State.finish; split at h <;> simp_all

/-- The pass runs exactly while FINAL is Running. -/
theorem State.ended_eq_false_iff : s.ended = false ↔ s.final = .running := by
  unfold State.ended; split <;> simp_all

@[simp] theorem State.report_src (r : Result) : (s.report r).src = s.src := by cases r <;> rfl
@[simp] theorem State.report_policy (r : Result) : (s.report r).policy = s.policy := by cases r <;> rfl
@[simp] theorem State.report_off (r : Result) : (s.report r).off = s.off := by cases r <;> rfl
@[simp] theorem State.report_out (r : Result) : (s.report r).out = s.out := by cases r <;> rfl
@[simp] theorem State.report_final (r : Result) : (s.report r).final = s.final := by cases r <;> rfl
@[simp] theorem State.report_res (r : Result) : (s.report r).res = some r := by cases r <;> rfl
@[simp] theorem State.settle_src (r : Result) : (s.settle r).src = s.src := by
  cases r <;> simp only [State.settle] <;> first | (split <;> simp) | simp
@[simp] theorem State.settle_policy (r : Result) : (s.settle r).policy = s.policy := by
  cases r <;> simp only [State.settle] <;> first | (split <;> simp) | simp
@[simp] theorem State.settle_off (r : Result) : (s.settle r).off = s.off := by
  cases r <;> simp only [State.settle] <;> first | (split <;> simp) | simp
@[simp] theorem State.settle_res (r : Result) : (s.settle r).res = s.res := by
  cases r <;> simp only [State.settle] <;> first | (split <;> simp) | simp
@[simp] theorem State.settle_recs (r : Result) : (s.settle r).recs = s.recs := by
  cases r <;> simp only [State.settle] <;> first | (split <;> simp) | simp
@[simp] theorem State.conclude_src (r : Result) (off : Nat) : (s.conclude r off).src = s.src := by
  simp [State.conclude]
@[simp] theorem State.conclude_policy (r : Result) (off : Nat) : (s.conclude r off).policy = s.policy := by
  simp [State.conclude]
@[simp] theorem State.conclude_off (r : Result) (off : Nat) : (s.conclude r off).off = off := by
  simp [State.conclude]
@[simp] theorem State.conclude_res (r : Result) (off : Nat) : (s.conclude r off).res = some r := by
  simp [State.conclude]

/-- All that a delivered instruction does (R64, R67, R134). -/
theorem State.deliver_eq (record : DecodedInstruction) (length : Nat) :
    s.deliver record length =
      { s with
        off := s.off + length
        res := some (.decoded record s.off length)
        recs := s.recs ++ [record]
        out := s.out ++ fmtInstr record ++ [newline] } := rfl

/-- All that the end of the stream does while the pass runs (R138). -/
theorem State.endAttempt_eq (h : s.final = .running) :
    s.endAttempt = { s with res := some (.endOfStream s.off), final := .doneOk } := by
  simp [State.endAttempt, State.conclude, State.settle, State.report, State.finish, State.setOff, State.setRes, h]

/-- All that a truncated instruction does while the pass runs (R139). -/
theorem State.truncate_eq (lead : Byte) (h : s.final = .running) :
    s.truncate lead =
      { s with
        off := s.off + s.stream.length
        res := some (.truncatedInstruction s.off lead)
        final := .doneTruncated s.off lead } := by
  simp [State.truncate, State.conclude, State.settle, State.report, State.finish, State.setOff, State.setRes, h]

/-- Everything an attempt can do to the outputs and to FINAL, by its result. -/
theorem State.conclude_cases (r : Result) (off : Nat) :
    (∃ record start length, r = .decoded record start length ∧
      (s.conclude r off).recs = s.recs ++ [record] ∧
      (s.conclude r off).out = s.out ++ (fmtInstr record ++ [newline]) ∧ (s.conclude r off).final = s.final) ∨
    ((s.conclude r off).recs = s.recs ∧ (s.conclude r off).out = s.out) ∨
    (∃ start lead, r = .unrecognized start lead ∧ s.policy = .placeholder ∧
      (s.conclude r off).recs = s.recs ∧
      (s.conclude r off).out = s.out ++ (placeholderLine lead ++ [newline]) ∧
      (s.conclude r off).final = s.final) := by
  cases r with
  | decoded record start length => exact .inl ⟨record, start, length, rfl, by simp [State.conclude, State.settle, State.report]⟩
  | endOfStream start => exact .inr (.inl (by simp [State.conclude, State.settle, State.report]))
  | truncatedInstruction start lead => exact .inr (.inl (by simp [State.conclude, State.settle, State.report]))
  | unrecognized start lead =>
    cases hp : s.policy with
    | halt => exact .inr (.inl (by simp [State.conclude, State.settle, State.report, hp]))
    | skipOne => exact .inr (.inl (by simp [State.conclude, State.settle, State.report, hp]))
    | placeholder => exact .inr (.inr ⟨start, lead, rfl, rfl, by simp [State.conclude, State.settle, State.report, hp]⟩)

end Sys2Proof.Machine
end

