-- ==== Sys2Proof/Laws/Exec.lean ====
section
/-! SUPPORT. What `exec` and `step` do, said once over the formats, so that no later proof splits the 73 rows again. -/

namespace Sys2Proof

open Sys2Proof.Machine

/-- The operand of an operand side (R70 to R74). -/
def RmForm.operand (w : Bool) (f : RmForm) : Operand :=
  match f with
  | .baseLow rm => baseOperand rm
  | .baseMid rm => baseOperand rm
  | .baseBx => baseOperand 7
  | .direct addr => directOperand addr
  | .disp8 rm disp => disp8Operand rm disp
  | .disp16 rm disp => disp16Operand rm disp
  | .register rm => regOperand rm w

/-- How many bytes follow the ModRM byte for an operand side (R50). -/
def RmForm.extra (f : RmForm) : Nat :=
  match f with
  | .baseLow _ => 0
  | .baseMid _ => 0
  | .baseBx => 0
  | .direct _ => 2
  | .disp8 _ _ => 1
  | .disp16 _ _ => 2
  | .register _ => 0

/-- The record of a format, or nothing where no shape matches. -/
def Format.record (f : Format) : Option DecodedInstruction :=
  match f with
  | .rmReg d w reg form => some (rmRegRecord d w reg (form.operand w))
  | .immReg8 reg imm => some (immRegRecord false reg (imm8Operand imm))
  | .immReg16 reg imm => some (immRegRecord true reg (imm16Operand imm))
  | .immMem8 _ form imm => some (immMemRecord (form.operand false) (imm8Operand imm))
  | .immMem16 _ form imm => some (immMemRecord (form.operand true) (imm16Operand imm))
  | .memAcc w addr => some (memAccRecord w addr)
  | .accMem w addr => some (accMemRecord w addr)
  | .noShape _ => none

/-- The length of a format in bytes (R50). -/
def Format.length (f : Format) : Nat :=
  match f with
  | .rmReg _ _ _ form => 2 + form.extra
  | .immReg8 _ _ => 2
  | .immReg16 _ _ => 3
  | .immMem8 _ form _ => 3 + form.extra
  | .immMem16 _ form _ => 4 + form.extra
  | .memAcc _ _ => 3
  | .accMem _ _ => 3
  | .noShape _ => 1

/-- The result of an attempt that reads a format at `start`. -/
def Format.result (f : Format) (start : Nat) : Result :=
  match f with
  | .rmReg d w reg form => .decoded (rmRegRecord d w reg (form.operand w)) start (2 + form.extra)
  | .immReg8 reg imm => .decoded (immRegRecord false reg (imm8Operand imm)) start 2
  | .immReg16 reg imm => .decoded (immRegRecord true reg (imm16Operand imm)) start 3
  | .immMem8 _ form imm => .decoded (immMemRecord (form.operand false) (imm8Operand imm)) start (3 + form.extra)
  | .immMem16 _ form imm => .decoded (immMemRecord (form.operand true) (imm16Operand imm)) start (4 + form.extra)
  | .memAcc w addr => .decoded (memAccRecord w addr) start 3
  | .accMem w addr => .decoded (accMemRecord w addr) start 3
  | .noShape lead => .unrecognized start lead

/-- A format reports its record, or that its byte is unrecognized. -/
theorem Format.result_cases (f : Format) (start : Nat) :
    (∃ r, f.record = some r ∧ f.result start = .decoded r start f.length ∧ 2 ≤ f.length ∧ f.length ≤ 6) ∨
    (∃ lead, f = .noShape lead ∧ f.result start = .unrecognized start lead) := by
  have h : ∀ form : RmForm, form.extra ≤ 2 := by intro form; cases form <;> simp [RmForm.extra]
  cases f with
  | noShape lead => exact .inr ⟨lead, rfl, rfl⟩
  | rmReg d w reg form => exact .inl ⟨_, rfl, rfl, by simp [Format.length], by have := h form; simp [Format.length]; omega⟩
  | immMem8 ign form imm => exact .inl ⟨_, rfl, rfl, by simp [Format.length]; omega, by have := h form; simp [Format.length]; omega⟩
  | immMem16 ign form imm => exact .inl ⟨_, rfl, rfl, by simp [Format.length]; omega, by have := h form; simp [Format.length]; omega⟩
  | immReg8 reg imm => exact .inl ⟨_, rfl, rfl, by simp [Format.length], by simp [Format.length]⟩
  | immReg16 reg imm => exact .inl ⟨_, rfl, rfl, by simp [Format.length], by simp [Format.length]⟩
  | memAcc w addr => exact .inl ⟨_, rfl, rfl, by simp [Format.length], by simp [Format.length]⟩
  | accMem w addr => exact .inl ⟨_, rfl, rfl, by simp [Format.length], by simp [Format.length]⟩

/-- A format has as many bytes as R50 says. -/
theorem Format.length_bytes (f : Format) : f.bytes.length = f.length := by
  cases f with
  | rmReg d w reg form => cases form <;> rfl
  | immMem8 ign form imm => cases form <;> rfl
  | immMem16 ign form imm => cases form <;> rfl
  | immReg8 reg imm => rfl
  | immReg16 reg imm => rfl
  | memAcc w addr => rfl
  | accMem w addr => rfl
  | noShape lead => rfl

/-- Every instruction reports the result of its format and moves the cursor by its length. -/
theorem exec_eq_conclude (i : Instr) (s : State) :
    exec i s = .next (s.conclude (i.format.result s.off) (s.off + i.format.length)) := by
  cases i <;> rfl

/-- The bytes of a format decode to its row. -/
theorem decode_of_bytes (f : Format) (hf : f.ok = true) (rest : List Byte) :
    decode (f.bytes ++ rest) = .instr (Instr.ofFormat f) rest := by
  obtain ⟨lead, tail, hb, hp⟩ := parse_bytes f hf rest
  simp [hb, decode, hp]

/-- The three things a decoder can find. -/
theorem decode_cases (bs : List Byte) :
    (bs = [] ∧ decode bs = .endOfStream) ∨
    (∃ (f : Format) (rest : List Byte), f.ok = true ∧ bs = f.bytes ++ rest ∧ decode bs = .instr (Instr.ofFormat f) rest) ∨
    (∃ lead tail, bs = lead :: tail ∧ parse lead tail = none ∧ decode bs = .truncated lead) := by
  cases bs with
  | nil => exact .inl ⟨rfl, rfl⟩
  | cons lead tail =>
    cases hp : parse lead tail with
    | none => exact .inr (.inr ⟨lead, tail, rfl, hp, by simp [decode, hp]⟩)
    | some p =>
      obtain ⟨f, rest⟩ := p
      obtain ⟨hok, hb⟩ := parse_eq_some hp
      exact .inr (.inl ⟨f, rest, hok, hb, by simp [decode, hp]⟩)

/-- A running step on the bytes of a format. -/
theorem step_of_format {s : State} (hs : s.final = .running) {f : Format} (hf : f.ok = true) {rest : List Byte}
    (hb : s.stream = f.bytes ++ rest) :
    step s = .next (s.conclude (f.result s.off) (s.off + f.length)) := by
  simp [step, State.ended, hs, hb, decode_of_bytes f hf, exec_eq_conclude, (ofFormat_spec f hf).1]

/-- A running step at the end of the stream. -/
theorem step_of_nil {s : State} (hs : s.final = .running) (hb : s.stream = []) : step s = .next s.endAttempt := by
  simp [step, State.ended, hs, hb, decode]

/-- A running step where the follow-on bytes run out. -/
theorem step_of_truncated {s : State} (hs : s.final = .running) {lead : Byte} {tail : List Byte}
    (hb : s.stream = lead :: tail) (hp : parse lead tail = none) : step s = .next (s.truncate lead) := by
  simp [step, State.ended, hs, hb, decode, hp]

/-- EVERYTHING a step can do: read a format, find the end, or run out of bytes; and only while the pass runs. -/
theorem step_cases {s t : State} (h : step s = .next t) :
    s.final = .running ∧
    ((∃ (f : Format) (rest : List Byte), f.ok = true ∧ s.stream = f.bytes ++ rest ∧
        t = s.conclude (f.result s.off) (s.off + f.length)) ∨
     (s.stream = [] ∧ t = s.endAttempt) ∨
     (∃ lead tail, s.stream = lead :: tail ∧ parse lead tail = none ∧ t = s.truncate lead)) := by
  have hs : s.final = .running := by
    cases he : s.ended with
    | false => exact (State.ended_eq_false_iff s).mp he
    | true => simp [step, he] at h
  refine ⟨hs, ?_⟩
  rcases decode_cases s.stream with ⟨hn, -⟩ | ⟨f, rest, hf, hb, -⟩ | ⟨lead, tail, hb, hp, -⟩
  · rw [step_of_nil hs hn] at h; cases h; exact .inr (.inl ⟨hn, rfl⟩)
  · rw [step_of_format hs hf hb] at h; cases h; exact .inl ⟨f, rest, hf, hb, rfl⟩
  · rw [step_of_truncated hs hb hp] at h; cases h; exact .inr (.inr ⟨lead, tail, hb, hp, rfl⟩)

/-- While the pass runs there is a next state. -/
theorem step_of_running {s : State} (hs : s.final = .running) : ∃ t, step s = .next t := by
  rcases decode_cases s.stream with ⟨hn, -⟩ | ⟨f, rest, hf, hb, -⟩ | ⟨lead, tail, hb, hp, -⟩
  · exact ⟨_, step_of_nil hs hn⟩
  · exact ⟨_, step_of_format hs hf hb⟩
  · exact ⟨_, step_of_truncated hs hb hp⟩

@[simp] theorem listing_nil : listing [] = [] := rfl

/-- The lines of two record sequences stand one after the other. -/
theorem listing_append (a b : List DecodedInstruction) : listing (a ++ b) = listing a ++ listing b :=
  List.flatMap_append

/-- The cursor has before it what the canonical form holds from OFF on. -/
theorem State.length_stream {s : State} (h : s.src.wf = true) : s.stream.length = s.src.len - s.off :=
  Memory.length_bytesFrom s.src h s.off

end Sys2Proof
end

