-- ==== Sys2Proof/Laws/Cursor.lean ====
section
/-! SUPPORT. Laws of the byte cursor: what the cursor reads is what stands before it, and how a routine that reads
byte by byte relates to a reader of byte lists. -/

namespace Sys2Proof.Machine

open Sys2Proof

/-- Moving the cursor drops bytes from what stands before it. -/
theorem State.stream_setOff {s : State} (h : s.src.wf = true) (n : Nat) :
    (s.setOff (s.off + n)).stream = s.stream.drop n := by
  simp [State.stream, Memory.bytesFrom_eq _ h, Nat.add_comm]

/-- The byte at the cursor is the first of those before it. -/
theorem State.read_eq_head {s : State} (h : s.src.wf = true) : s.src.read s.off = s.stream.head? := by
  simp [State.stream, Memory.bytesFrom_eq _ h, Memory.read_eq _ h]

/-- The byte after the one at the cursor. -/
theorem State.read_next {s : State} (h : s.src.wf = true) : s.src.read (s.off + 1) = s.stream[1]? := by
  simp [State.stream, Memory.bytesFrom_eq _ h, Memory.read_eq _ h]

@[simp] theorem State.setOff_setOff (s : State) (a b : Nat) : (s.setOff a).setOff b = s.setOff b := rfl

/-- Reading a byte that stands before the cursor. -/
theorem nextByte_of_cons {s : State} (h : s.src.wf = true) {b : Byte} {rest : List Byte} (hb : s.stream = b :: rest) :
    nextByte s = (.byte b, s.setOff (s.off + 1)) := by
  simp [nextByte, State.read_eq_head h, hb]

/-- Reading at the end. -/
theorem nextByte_of_nil {s : State} (h : s.src.wf = true) (hb : s.stream = []) : nextByte s = (.endOfStream, s) := by
  simp [nextByte, State.read_eq_head h, hb]

/-- `x` reads, byte by byte, what `p` takes from the bytes before the cursor; where they run out it raises with the
cursor at the end. -/
def Reads {α : Type} (x : Attempt α) (p : List Byte → Option (α × List Byte)) : Prop :=
  ∀ s : State, s.src.wf = true →
    (∀ a rest, p s.stream = some (a, rest) →
      ∃ n, n ≤ s.stream.length ∧ rest = s.stream.drop n ∧ x s = (some a, s.setOff (s.off + n))) ∧
    (p s.stream = none → x s = (none, s.setOff (s.off + s.stream.length)))

theorem Reads.yields {α : Type} (a : α) : Reads (yields a) fun bs => some (a, bs) := by
  intro s _
  refine ⟨fun b rest h => ?_, fun h => by simp at h⟩
  simp only [Option.some.injEq, Prod.mk.injEq] at h
  obtain ⟨rfl, rfl⟩ := h
  exact ⟨0, Nat.zero_le _, rfl, rfl⟩

theorem Reads.needByte : Reads needByte take8 := by
  intro s hw
  cases hb : s.stream with
  | nil =>
    refine ⟨fun a rest h => by simp [take8] at h, fun _ => ?_⟩
    simp [Sys2Proof.Machine.needByte, nextByte_of_nil hw hb]; rfl
  | cons b bs =>
    refine ⟨fun a rest h => ?_, fun h => by simp [take8] at h⟩
    simp only [take8, Option.some.injEq, Prod.mk.injEq] at h
    obtain ⟨rfl, rfl⟩ := h
    exact ⟨1, by simp, rfl, by simp [Sys2Proof.Machine.needByte, nextByte_of_cons hw hb]⟩

theorem Reads.andThen {α β : Type} {x : Attempt α} {p : List Byte → Option (α × List Byte)} {f : α → Attempt β}
    {q : α → List Byte → Option (β × List Byte)} (hx : Reads x p) (hf : ∀ a, Reads (f a) (q a)) :
    Reads (andThen x f) fun bs => (p bs).bind fun r => q r.1 r.2 := by
  intro s hw
  obtain ⟨h1, h2⟩ := hx s hw
  cases hp : p s.stream with
  | none => exact ⟨fun a rest h => by simp [hp] at h, fun _ => by simp [Sys2Proof.Machine.andThen, h2 hp]⟩
  | some r =>
    obtain ⟨a, bs⟩ := r
    obtain ⟨n, hn, rfl, hxs⟩ := h1 a bs hp
    obtain ⟨g1, g2⟩ := hf a (s.setOff (s.off + n)) hw
    rw [State.stream_setOff hw] at g1 g2
    refine ⟨fun b rest h => ?_, fun h => ?_⟩
    · simp only [hp, Option.bind_some] at h
      obtain ⟨k, hk, rfl, hfs⟩ := g1 b rest h
      refine ⟨n + k, by simp at hk; omega, by simp, ?_⟩
      simp [Sys2Proof.Machine.andThen, hxs, hfs, Nat.add_assoc]
    · simp only [hp, Option.bind_some] at h
      simp only [Sys2Proof.Machine.andThen, hxs, g2 h, State.setOff_off, State.setOff_setOff, List.length_drop]
      congr 2; omega

/-- The same reader, said otherwise. -/
theorem Reads.congr {α : Type} {x : Attempt α} {p q : List Byte → Option (α × List Byte)} (h : Reads x p)
    (e : ∀ bs, p bs = q bs) : Reads x q := by
  rwa [← funext e]

theorem Reads.readU16 : Reads readU16 take16 :=
  (Reads.needByte.andThen fun lo => Reads.needByte.andThen fun hi => Reads.yields (le16 lo hi)).congr fun bs => by
    match bs with
    | [] => rfl
    | [_] => rfl
    | _ :: _ :: _ => rfl

theorem Reads.readDisp8 : Reads readDisp8 fun bs => (take8 bs).map fun v => (sext16 v.1, v.2) :=
  (Reads.needByte.andThen fun b => Reads.yields (sext16 b)).congr fun bs => by cases bs <;> rfl

theorem Reads.readImm (w : Bool) : Reads (readImm w) fun bs =>
    if w then take16 bs else (take8 bs).map fun v => (sext16 v.1, v.2) := by
  cases w
  · exact Reads.readDisp8
  · exact Reads.readU16

/-- The resolver reads what the decoder takes for the same `mod` and `rm`. -/
theorem Reads.resolveRm (mod : BitVec 2) (rm : Code) (w : Bool) : Reads (resolveRm mod rm w) fun bs =>
    (takeForm mod rm bs).map fun f => (f.1.operand w, f.2) := by
  unfold Sys2Proof.Machine.resolveRm
  split
  case isTrue h => subst h; exact Reads.yields _
  split
  case isTrue h3 h0 =>
    subst h0
    split
    case isTrue h6 =>
      subst h6
      exact (Reads.readU16.andThen fun a => Reads.yields (Operand.directAddress a)).congr fun bs => by
        simp [takeForm]; cases take16 bs <;> rfl
    case isFalse h6 =>
      refine (Reads.yields (Operand.memory rm none)).congr fun bs => ?_
      rw [takeForm, if_neg (by decide), if_neg (by decide), if_neg (by decide), if_neg h6]
      split
      case isTrue h7 => subst h7; rfl
      split <;> rfl
  split
  case isTrue h3 h0 h1 =>
    subst h1
    exact (Reads.readDisp8.andThen fun d => Reads.yields (Operand.memory rm (some d))).congr fun bs => by
      simp [takeForm]; cases take8 bs <;> rfl
  case isFalse h3 h0 h1 =>
    have h2 : mod = 2 := by
      have key : ∀ m : BitVec 2, m ≠ 3 → m ≠ 0 → m ≠ 1 → m = 2 := by decide
      exact key mod h3 h0 h1
    subst h2
    exact (Reads.readU16.andThen fun d => Reads.yields (Operand.memory rm (some d))).congr fun bs => by
      simp [takeForm]; cases take16 bs <;> rfl

/-- The routine of a shape reads what `parse` takes, and yields its record. -/
theorem Reads.dispatch {lead : Byte} {x : Attempt DecodedInstruction} (h : dispatch lead = some x) :
    Reads x fun bs => (parse lead bs).bind fun f => f.1.record.map fun r => (r, f.2) := by
  unfold Sys2Proof.Machine.dispatch at h
  split at h <;> rename_i hc <;> cases h
  · refine (Reads.needByte.andThen fun m => (Reads.resolveRm _ _ _).andThen fun o => Reads.yields _).congr fun bs => ?_
    simp only [parse, hc]
    cases take8 bs with
    | none => rfl
    | some m =>
      simp only [Option.bind_some]
      cases takeForm (modOf m.1) (rmOf m.1) m.2 <;> simp [Format.record, rmRegRecord, regOperand, resolveReg]
  · refine ((Reads.readImm _).andThen fun v => Reads.yields _).congr fun bs => ?_
    simp only [parse, hc]
    cases wBitImmReg lead
    · cases take8 bs <;> rfl
    · cases take16 bs <;> rfl
  · refine (Reads.needByte.andThen fun m => (Reads.resolveRm _ _ _).andThen fun o =>
      (Reads.readImm _).andThen fun v => Reads.yields _).congr fun bs => ?_
    simp only [parse, hc]
    cases take8 bs with
    | none => rfl
    | some m =>
      simp only [Option.bind_some]
      cases takeForm (modOf m.1) (rmOf m.1) m.2 with
      | none => rfl
      | some f =>
        cases wBit lead
        · cases hv : take8 f.2 <;> simp [hv, Format.record, immMemRecord, imm8Operand, widthOf]
        · cases hv : take16 f.2 <;> simp [hv, Format.record, immMemRecord, imm16Operand, widthOf]
  · refine (Reads.readU16.andThen fun a => Reads.yields _).congr fun bs => ?_
    simp only [parse, hc]
    cases take16 bs <;> rfl
  · refine (Reads.readU16.andThen fun a => Reads.yields _).congr fun bs => ?_
    simp only [parse, hc]
    cases take16 bs <;> rfl

/-- Only `NoShape` selects no routine. -/
theorem dispatch_eq_none_iff (lead : Byte) : dispatch lead = none ↔ classify lead = .noShape := by
  unfold dispatch; split <;> simp_all

end Sys2Proof.Machine
end

