-- ==== Sys2Proof/Laws/PerInstr.lean ====
section
/-! SUPPORT. The family EncodeLength, one lemma per constructor: an encoding has the number of bytes that the row of
the opcode table gives (R50). -/

namespace Sys2Proof.Laws.EncodeLength

open Sys2Proof

/-- The encoding of `i` is as long as the row of `i` says. -/
def Statement (i : Instr) : Prop := (tableRows[i.ctorIdx]?).map Row.length = some (encode i).length

theorem mov88BaseLow (reg rm : Code) : Statement (.mov88BaseLow reg rm) := rfl
theorem mov88BaseMid (reg rm : Code) : Statement (.mov88BaseMid reg rm) := rfl
theorem mov88BaseBx (reg : Code) : Statement (.mov88BaseBx reg) := rfl
theorem mov88Direct (reg : Code) (addr : U16) : Statement (.mov88Direct reg addr) := rfl
theorem mov88Disp8 (reg rm : Code) (disp : Byte) : Statement (.mov88Disp8 reg rm disp) := rfl
theorem mov88Disp16 (reg rm : Code) (disp : U16) : Statement (.mov88Disp16 reg rm disp) := rfl
theorem mov88Reg (reg rm : Code) : Statement (.mov88Reg reg rm) := rfl
theorem mov89BaseLow (reg rm : Code) : Statement (.mov89BaseLow reg rm) := rfl
theorem mov89BaseMid (reg rm : Code) : Statement (.mov89BaseMid reg rm) := rfl
theorem mov89BaseBx (reg : Code) : Statement (.mov89BaseBx reg) := rfl
theorem mov89Direct (reg : Code) (addr : U16) : Statement (.mov89Direct reg addr) := rfl
theorem mov89Disp8 (reg rm : Code) (disp : Byte) : Statement (.mov89Disp8 reg rm disp) := rfl
theorem mov89Disp16 (reg rm : Code) (disp : U16) : Statement (.mov89Disp16 reg rm disp) := rfl
theorem mov89Reg (reg rm : Code) : Statement (.mov89Reg reg rm) := rfl
theorem mov8ABaseLow (reg rm : Code) : Statement (.mov8ABaseLow reg rm) := rfl
theorem mov8ABaseMid (reg rm : Code) : Statement (.mov8ABaseMid reg rm) := rfl
theorem mov8ABaseBx (reg : Code) : Statement (.mov8ABaseBx reg) := rfl
theorem mov8ADirect (reg : Code) (addr : U16) : Statement (.mov8ADirect reg addr) := rfl
theorem mov8ADisp8 (reg rm : Code) (disp : Byte) : Statement (.mov8ADisp8 reg rm disp) := rfl
theorem mov8ADisp16 (reg rm : Code) (disp : U16) : Statement (.mov8ADisp16 reg rm disp) := rfl
theorem mov8AReg (reg rm : Code) : Statement (.mov8AReg reg rm) := rfl
theorem mov8BBaseLow (reg rm : Code) : Statement (.mov8BBaseLow reg rm) := rfl
theorem mov8BBaseMid (reg rm : Code) : Statement (.mov8BBaseMid reg rm) := rfl
theorem mov8BBaseBx (reg : Code) : Statement (.mov8BBaseBx reg) := rfl
theorem mov8BDirect (reg : Code) (addr : U16) : Statement (.mov8BDirect reg addr) := rfl
theorem mov8BDisp8 (reg rm : Code) (disp : Byte) : Statement (.mov8BDisp8 reg rm disp) := rfl
theorem mov8BDisp16 (reg rm : Code) (disp : U16) : Statement (.mov8BDisp16 reg rm disp) := rfl
theorem mov8BReg (reg rm : Code) : Statement (.mov8BReg reg rm) := rfl
theorem movB0 (imm : Byte) : Statement (.movB0 imm) := rfl
theorem movB1 (imm : Byte) : Statement (.movB1 imm) := rfl
theorem movB2 (imm : Byte) : Statement (.movB2 imm) := rfl
theorem movB3 (imm : Byte) : Statement (.movB3 imm) := rfl
theorem movB4 (imm : Byte) : Statement (.movB4 imm) := rfl
theorem movB5 (imm : Byte) : Statement (.movB5 imm) := rfl
theorem movB6 (imm : Byte) : Statement (.movB6 imm) := rfl
theorem movB7 (imm : Byte) : Statement (.movB7 imm) := rfl
theorem movB8 (imm : U16) : Statement (.movB8 imm) := rfl
theorem movB9 (imm : U16) : Statement (.movB9 imm) := rfl
theorem movBA (imm : U16) : Statement (.movBA imm) := rfl
theorem movBB (imm : U16) : Statement (.movBB imm) := rfl
theorem movBC (imm : U16) : Statement (.movBC imm) := rfl
theorem movBD (imm : U16) : Statement (.movBD imm) := rfl
theorem movBE (imm : U16) : Statement (.movBE imm) := rfl
theorem movBF (imm : U16) : Statement (.movBF imm) := rfl
theorem movC6BaseLow (ign rm : Code) (imm : Byte) : Statement (.movC6BaseLow ign rm imm) := rfl
theorem movC6BaseMid (ign rm : Code) (imm : Byte) : Statement (.movC6BaseMid ign rm imm) := rfl
theorem movC6BaseBx (ign : Code) (imm : Byte) : Statement (.movC6BaseBx ign imm) := rfl
theorem movC6Direct (ign : Code) (addr : U16) (imm : Byte) : Statement (.movC6Direct ign addr imm) := rfl
theorem movC6Disp8 (ign rm : Code) (disp imm : Byte) : Statement (.movC6Disp8 ign rm disp imm) := rfl
theorem movC6Disp16 (ign rm : Code) (disp : U16) (imm : Byte) : Statement (.movC6Disp16 ign rm disp imm) := rfl
theorem movC6Reg (ign rm : Code) (imm : Byte) : Statement (.movC6Reg ign rm imm) := rfl
theorem movC7BaseLow (ign rm : Code) (imm : U16) : Statement (.movC7BaseLow ign rm imm) := rfl
theorem movC7BaseMid (ign rm : Code) (imm : U16) : Statement (.movC7BaseMid ign rm imm) := rfl
theorem movC7BaseBx (ign : Code) (imm : U16) : Statement (.movC7BaseBx ign imm) := rfl
theorem movC7Direct (ign : Code) (addr imm : U16) : Statement (.movC7Direct ign addr imm) := rfl
theorem movC7Disp8 (ign rm : Code) (disp : Byte) (imm : U16) : Statement (.movC7Disp8 ign rm disp imm) := rfl
theorem movC7Disp16 (ign rm : Code) (disp imm : U16) : Statement (.movC7Disp16 ign rm disp imm) := rfl
theorem movC7Reg (ign rm : Code) (imm : U16) : Statement (.movC7Reg ign rm imm) := rfl
theorem movA0 (addr : U16) : Statement (.movA0 addr) := rfl
theorem movA1 (addr : U16) : Statement (.movA1 addr) := rfl
theorem movA2 (addr : U16) : Statement (.movA2 addr) := rfl
theorem movA3 (addr : U16) : Statement (.movA3 addr) := rfl
theorem unrecognized00to7F (lead : Byte) : Statement (.unrecognized00to7F lead) := rfl
theorem unrecognized80to87 (lead : Byte) : Statement (.unrecognized80to87 lead) := rfl
theorem unrecognized8Cto8F (lead : Byte) : Statement (.unrecognized8Cto8F lead) := rfl
theorem unrecognized90to9F (lead : Byte) : Statement (.unrecognized90to9F lead) := rfl
theorem unrecognizedA4toA7 (lead : Byte) : Statement (.unrecognizedA4toA7 lead) := rfl
theorem unrecognizedA8toAF (lead : Byte) : Statement (.unrecognizedA8toAF lead) := rfl
theorem unrecognizedC0toC3 (lead : Byte) : Statement (.unrecognizedC0toC3 lead) := rfl
theorem unrecognizedC4toC5 (lead : Byte) : Statement (.unrecognizedC4toC5 lead) := rfl
theorem unrecognizedC8toCF (lead : Byte) : Statement (.unrecognizedC8toCF lead) := rfl
theorem unrecognizedD0toDF (lead : Byte) : Statement (.unrecognizedD0toDF lead) := rfl
theorem unrecognizedE0toFF (lead : Byte) : Statement (.unrecognizedE0toFF lead) := rfl

end Sys2Proof.Laws.EncodeLength
end

