-- ==== Sys2Proof/Tests/Slice0.lean ====
section
/-! SUPPORT. Tests. Every expected value is written out from the spec: encodings from 30_encoding.md, lines and results
from the vectors of 95_test_vectors.md (named S1 to S16 and V1 to V180 there). The `witness_` theorems show, for each
obligation with hypotheses, concrete inputs that meet all of them together. -/

namespace Sys2Proof.Tests

open Sys2Proof Sys2Proof.Machine

/-- OUT after one step; nothing if the step stops. -/
def outAfter (s : State) : Option Text :=
  match step s with
  | .next t => some t.out
  | .fault _ => none
  | .refused _ => none

/-- The text one attempt appends on a fresh launch. -/
def lineOf (bytes : List Byte) : Option Text := outAfter (State.launch bytes .halt)

/-- The result, the cursor and the final status after one attempt on a fresh launch. -/
def endOf (bytes : List Byte) (policy : Policy) : Option (Option Result × Nat × Final) :=
  match step (State.launch bytes policy) with
  | .next t => some (t.res, t.off, t.final)
  | .fault _ => none
  | .refused _ => none

/-- A line as it stands in OUT. -/
def line (s : String) : Option Text := some (ascii s ++ [0x0A])

/-! ### Well-formedness: each check refuses an ill-formed term -/

theorem test_wf_refuses_88 :
    (Instr.mov88BaseLow 0 4).wf = false ∧
    (Instr.mov88BaseLow 0 3).wf = true ∧
    (Instr.mov88BaseMid 0 3).wf = false ∧
    (Instr.mov88BaseMid 0 6).wf = false ∧
    (Instr.mov88BaseMid 0 5).wf = true := by decide

theorem test_wf_refuses_89 :
    (Instr.mov89BaseLow 0 4).wf = false ∧
    (Instr.mov89BaseLow 0 3).wf = true ∧
    (Instr.mov89BaseMid 0 3).wf = false ∧
    (Instr.mov89BaseMid 0 6).wf = false ∧
    (Instr.mov89BaseMid 0 5).wf = true := by decide

theorem test_wf_refuses_8A :
    (Instr.mov8ABaseLow 0 4).wf = false ∧
    (Instr.mov8ABaseLow 0 3).wf = true ∧
    (Instr.mov8ABaseMid 0 3).wf = false ∧
    (Instr.mov8ABaseMid 0 6).wf = false ∧
    (Instr.mov8ABaseMid 0 5).wf = true := by decide

theorem test_wf_refuses_8B :
    (Instr.mov8BBaseLow 0 4).wf = false ∧
    (Instr.mov8BBaseLow 0 3).wf = true ∧
    (Instr.mov8BBaseMid 0 3).wf = false ∧
    (Instr.mov8BBaseMid 0 6).wf = false ∧
    (Instr.mov8BBaseMid 0 5).wf = true := by decide

theorem test_wf_refuses_C6 :
    (Instr.movC6BaseLow 0 4 0).wf = false ∧
    (Instr.movC6BaseLow 0 3 0).wf = true ∧
    (Instr.movC6BaseMid 0 3 0).wf = false ∧
    (Instr.movC6BaseMid 0 6 0).wf = false ∧
    (Instr.movC6BaseMid 0 5 0).wf = true := by decide

theorem test_wf_refuses_C7 :
    (Instr.movC7BaseLow 0 4 0).wf = false ∧
    (Instr.movC7BaseLow 0 3 0).wf = true ∧
    (Instr.movC7BaseMid 0 3 0).wf = false ∧
    (Instr.movC7BaseMid 0 6 0).wf = false ∧
    (Instr.movC7BaseMid 0 5 0).wf = true := by decide

theorem test_wf_refuses_unrecognized_low :
    (Instr.unrecognized00to7F 0x80).wf = false ∧
    (Instr.unrecognized80to87 0x7F).wf = false ∧
    (Instr.unrecognized80to87 0x88).wf = false ∧
    (Instr.unrecognized8Cto8F 0x8B).wf = false ∧
    (Instr.unrecognized8Cto8F 0x90).wf = false ∧
    (Instr.unrecognized90to9F 0x8F).wf = false ∧
    (Instr.unrecognized90to9F 0xA0).wf = false ∧
    (Instr.unrecognizedA4toA7 0xA3).wf = false ∧
    (Instr.unrecognizedA4toA7 0xA8).wf = false ∧
    (Instr.unrecognizedA8toAF 0xA7).wf = false ∧
    (Instr.unrecognizedA8toAF 0xB0).wf = false := by decide

theorem test_wf_refuses_unrecognized_high :
    (Instr.unrecognizedC0toC3 0xBF).wf = false ∧
    (Instr.unrecognizedC0toC3 0xC4).wf = false ∧
    (Instr.unrecognizedC4toC5 0xC3).wf = false ∧
    (Instr.unrecognizedC4toC5 0xC6).wf = false ∧
    (Instr.unrecognizedC8toCF 0xC7).wf = false ∧
    (Instr.unrecognizedC8toCF 0xD0).wf = false ∧
    (Instr.unrecognizedD0toDF 0xCF).wf = false ∧
    (Instr.unrecognizedD0toDF 0xE0).wf = false ∧
    (Instr.unrecognizedE0toFF 0xDF).wf = false := by decide

/-! ### Decoding: every constructor by a word written from its format (30_encoding.md) -/

theorem test_decode_88 :
    decode [0x88, 0b00_011_001] = .instr (.mov88BaseLow 3 1) [] ∧
    decode [0x88, 0b00_110_101] = .instr (.mov88BaseMid 6 5) [] ∧
    decode [0x88, 0b00_001_111, 0x77] = .instr (.mov88BaseBx 1) [0x77] ∧
    decode [0x88, 0b00_101_110, 0x34, 0x12] = .instr (.mov88Direct 5 0x1234) [] ∧
    decode [0x88, 0b01_100_110, 0xB5] = .instr (.mov88Disp8 4 6 0xB5) [] ∧
    decode [0x88, 0b10_111_010, 0xCD, 0xAB] = .instr (.mov88Disp16 7 2 0xABCD) [] ∧
    decode [0x88, 0b11_010_100] = .instr (.mov88Reg 2 4) [] := by decide

theorem test_decode_89 :
    decode [0x89, 0b00_011_001] = .instr (.mov89BaseLow 3 1) [] ∧
    decode [0x89, 0b00_110_101] = .instr (.mov89BaseMid 6 5) [] ∧
    decode [0x89, 0b00_001_111, 0x77] = .instr (.mov89BaseBx 1) [0x77] ∧
    decode [0x89, 0b00_101_110, 0x34, 0x12] = .instr (.mov89Direct 5 0x1234) [] ∧
    decode [0x89, 0b01_100_110, 0xB5] = .instr (.mov89Disp8 4 6 0xB5) [] ∧
    decode [0x89, 0b10_111_010, 0xCD, 0xAB] = .instr (.mov89Disp16 7 2 0xABCD) [] ∧
    decode [0x89, 0b11_010_100] = .instr (.mov89Reg 2 4) [] := by decide

theorem test_decode_8A :
    decode [0x8A, 0b00_011_001] = .instr (.mov8ABaseLow 3 1) [] ∧
    decode [0x8A, 0b00_110_101] = .instr (.mov8ABaseMid 6 5) [] ∧
    decode [0x8A, 0b00_001_111, 0x77] = .instr (.mov8ABaseBx 1) [0x77] ∧
    decode [0x8A, 0b00_101_110, 0x34, 0x12] = .instr (.mov8ADirect 5 0x1234) [] ∧
    decode [0x8A, 0b01_100_110, 0xB5] = .instr (.mov8ADisp8 4 6 0xB5) [] ∧
    decode [0x8A, 0b10_111_010, 0xCD, 0xAB] = .instr (.mov8ADisp16 7 2 0xABCD) [] ∧
    decode [0x8A, 0b11_010_100] = .instr (.mov8AReg 2 4) [] := by decide

theorem test_decode_8B :
    decode [0x8B, 0b00_011_001] = .instr (.mov8BBaseLow 3 1) [] ∧
    decode [0x8B, 0b00_110_101] = .instr (.mov8BBaseMid 6 5) [] ∧
    decode [0x8B, 0b00_001_111, 0x77] = .instr (.mov8BBaseBx 1) [0x77] ∧
    decode [0x8B, 0b00_101_110, 0x34, 0x12] = .instr (.mov8BDirect 5 0x1234) [] ∧
    decode [0x8B, 0b01_100_110, 0xB5] = .instr (.mov8BDisp8 4 6 0xB5) [] ∧
    decode [0x8B, 0b10_111_010, 0xCD, 0xAB] = .instr (.mov8BDisp16 7 2 0xABCD) [] ∧
    decode [0x8B, 0b11_010_100] = .instr (.mov8BReg 2 4) [] := by decide

theorem test_decode_B0_to_B7 :
    decode [0b1011_0_000, 0x85] = .instr (.movB0 0x85) [] ∧
    decode [0b1011_0_001, 0x95] = .instr (.movB1 0x95) [] ∧
    decode [0b1011_0_010, 0xA5] = .instr (.movB2 0xA5) [] ∧
    decode [0b1011_0_011, 0xB5] = .instr (.movB3 0xB5) [] ∧
    decode [0b1011_0_100, 0xC5] = .instr (.movB4 0xC5) [] ∧
    decode [0b1011_0_101, 0xD5] = .instr (.movB5 0xD5) [] ∧
    decode [0b1011_0_110, 0xE5] = .instr (.movB6 0xE5) [] ∧
    decode [0b1011_0_111, 0xF5] = .instr (.movB7 0xF5) [] := by decide

theorem test_decode_B8_to_BF :
    decode [0b1011_1_000, 0x05, 0x10] = .instr (.movB8 0x1005) [] ∧
    decode [0b1011_1_001, 0x15, 0x11] = .instr (.movB9 0x1115) [] ∧
    decode [0b1011_1_010, 0x25, 0x12] = .instr (.movBA 0x1225) [] ∧
    decode [0b1011_1_011, 0x35, 0x13] = .instr (.movBB 0x1335) [] ∧
    decode [0b1011_1_100, 0x45, 0x14] = .instr (.movBC 0x1445) [] ∧
    decode [0b1011_1_101, 0x55, 0x15] = .instr (.movBD 0x1555) [] ∧
    decode [0b1011_1_110, 0x65, 0x16] = .instr (.movBE 0x1665) [] ∧
    decode [0b1011_1_111, 0x75, 0x17] = .instr (.movBF 0x1775) [] := by decide

theorem test_decode_C6 :
    decode [0xC6, 0b00_011_001, 0x9A] = .instr (.movC6BaseLow 3 1 0x9A) [] ∧
    decode [0xC6, 0b00_110_101, 0x9A] = .instr (.movC6BaseMid 6 5 0x9A) [] ∧
    decode [0xC6, 0b00_001_111, 0x9A, 0x77] = .instr (.movC6BaseBx 1 0x9A) [0x77] ∧
    decode [0xC6, 0b00_101_110, 0x34, 0x12, 0x9A] = .instr (.movC6Direct 5 0x1234 0x9A) [] ∧
    decode [0xC6, 0b01_100_110, 0xB5, 0x9A] = .instr (.movC6Disp8 4 6 0xB5 0x9A) [] ∧
    decode [0xC6, 0b10_111_010, 0xCD, 0xAB, 0x9A] = .instr (.movC6Disp16 7 2 0xABCD 0x9A) [] ∧
    decode [0xC6, 0b11_010_100, 0x9A] = .instr (.movC6Reg 2 4 0x9A) [] := by decide

theorem test_decode_C7 :
    decode [0xC7, 0b00_011_001, 0x9A, 0x78] = .instr (.movC7BaseLow 3 1 0x789A) [] ∧
    decode [0xC7, 0b00_110_101, 0x9A, 0x78] = .instr (.movC7BaseMid 6 5 0x789A) [] ∧
    decode [0xC7, 0b00_001_111, 0x9A, 0x78, 0x77] = .instr (.movC7BaseBx 1 0x789A) [0x77] ∧
    decode [0xC7, 0b00_101_110, 0x34, 0x12, 0x9A, 0x78] = .instr (.movC7Direct 5 0x1234 0x789A) [] ∧
    decode [0xC7, 0b01_100_110, 0xB5, 0x9A, 0x78] = .instr (.movC7Disp8 4 6 0xB5 0x789A) [] ∧
    decode [0xC7, 0b10_111_010, 0xCD, 0xAB, 0x9A, 0x78] = .instr (.movC7Disp16 7 2 0xABCD 0x789A) [] ∧
    decode [0xC7, 0b11_010_100, 0x9A, 0x78] = .instr (.movC7Reg 2 4 0x789A) [] := by decide

theorem test_decode_A0_to_A3 :
    decode [0b1010000_0, 0xFB, 0x09] = .instr (.movA0 0x09FB) [] ∧
    decode [0b1010000_1, 0xFB, 0x09] = .instr (.movA1 0x09FB) [] ∧
    decode [0b1010001_0, 0xFB, 0x09] = .instr (.movA2 0x09FB) [] ∧
    decode [0b1010001_1, 0xFB, 0x09, 0x01] = .instr (.movA3 0x09FB) [0x01] := by decide

theorem test_decode_unrecognized :
    decode [0x00, 0x89] = .instr (.unrecognized00to7F 0x00) [0x89] ∧
    decode [0x7F, 0x89] = .instr (.unrecognized00to7F 0x7F) [0x89] ∧
    decode [0x80, 0x89] = .instr (.unrecognized80to87 0x80) [0x89] ∧
    decode [0x87, 0x89] = .instr (.unrecognized80to87 0x87) [0x89] ∧
    decode [0x8C, 0x89] = .instr (.unrecognized8Cto8F 0x8C) [0x89] ∧
    decode [0x8F, 0x89] = .instr (.unrecognized8Cto8F 0x8F) [0x89] ∧
    decode [0x90, 0x89] = .instr (.unrecognized90to9F 0x90) [0x89] ∧
    decode [0x9F, 0x89] = .instr (.unrecognized90to9F 0x9F) [0x89] ∧
    decode [0xA4, 0x89] = .instr (.unrecognizedA4toA7 0xA4) [0x89] ∧
    decode [0xA7, 0x89] = .instr (.unrecognizedA4toA7 0xA7) [0x89] ∧
    decode [0xA8, 0x89] = .instr (.unrecognizedA8toAF 0xA8) [0x89] ∧
    decode [0xAF, 0x89] = .instr (.unrecognizedA8toAF 0xAF) [0x89] ∧
    decode [0xC0, 0x89] = .instr (.unrecognizedC0toC3 0xC0) [0x89] ∧
    decode [0xC3, 0x89] = .instr (.unrecognizedC0toC3 0xC3) [0x89] ∧
    decode [0xC4, 0x89] = .instr (.unrecognizedC4toC5 0xC4) [0x89] ∧
    decode [0xC5, 0x89] = .instr (.unrecognizedC4toC5 0xC5) [0x89] ∧
    decode [0xC8, 0x89] = .instr (.unrecognizedC8toCF 0xC8) [0x89] ∧
    decode [0xCF, 0x89] = .instr (.unrecognizedC8toCF 0xCF) [0x89] ∧
    decode [0xD0, 0x89] = .instr (.unrecognizedD0toDF 0xD0) [0x89] ∧
    decode [0xDF, 0x89] = .instr (.unrecognizedD0toDF 0xDF) [0x89] ∧
    decode [0xE0, 0x89] = .instr (.unrecognizedE0toFF 0xE0) [0x89] ∧
    decode [0xFF, 0x89] = .instr (.unrecognizedE0toFF 0xFF) [0x89] := by decide

theorem test_decode_no_byte :
    decode [] = .endOfStream ∧
    decode [0x89] = .truncated 0x89 ∧
    decode [0xC7, 0x06, 0x01, 0x0F, 0x0C] = .truncated 0xC7 := by decide

/-- The table numbers the first byte of a 16-bit row as bits 15 to 8 (30_encoding.md section 8). -/
theorem test_decode_table_word :
    decodeTableWord 16 0x8800 = some (.mov88BaseLow 0 0) ∧
    decodeTableWord 16 0x8BC1 = some (.mov8BReg 0 1) ∧
    decodeTableWord 16 0xC706 = some (.movC7Direct 0 0 0) ∧
    decodeTableWord 8 0xB0 = some (.movB0 0) ∧
    decodeTableWord 8 0xB9 = some (.movB9 0) ∧
    decodeTableWord 8 0xC4 = some (.unrecognizedC4toC5 0xC4) := by decide

/-- The very next step runs the word placed at the cursor, with zeros behind it. -/
theorem test_fetch_word_runs_next :
    outAfter (State.reset.withFetchWord 16 0x8BC1) = line "mov ax, cx" ∧
    outAfter (State.reset.withFetchWord 8 0xA1) = line "mov ax, [0]" ∧
    outAfter (State.reset.withFetchWord 16 0xC6C1) = line "mov cl, 0" ∧
    (State.reset.withFetchWord 16 0x8BC1).src.wf = true := by decide

theorem test_table_has_73_rows :
    tableRows.length = 73 := by decide

/-! ### Lines: vectors of 95_test_vectors.md through one step -/

/-- Leading byte 88: V36, V42, V52, V55, V67, V81. -/
theorem test_line_88 :
    lineOf [0x88, 0xC1] = line "mov cl, al" ∧
    lineOf [0x88, 0xE7] = line "mov bh, ah" ∧
    lineOf [0x88, 0x0F] = line "mov [bx], cl" ∧
    lineOf [0x88, 0x06, 0x00, 0x00] = line "mov [0], al" ∧
    lineOf [0x88, 0x63, 0xF4] = line "mov [bp + di - 12], ah" ∧
    lineOf [0x88, 0xB3, 0xB5, 0x00] = line "mov [bp + di + 181], dh" := by decide

/-- Leading byte 89: V38, V40, V53, V56, V66, V82. -/
theorem test_line_89 :
    lineOf [0x89, 0xD9] = line "mov cx, bx" ∧
    lineOf [0x89, 0xE5] = line "mov bp, sp" ∧
    lineOf [0x89, 0x2A] = line "mov [bp + si], bp" ∧
    lineOf [0x89, 0x1E, 0xFF, 0xFF] = line "mov [65535], bx" ∧
    lineOf [0x89, 0x52, 0x0C] = line "mov [bp + si + 12], dx" ∧
    lineOf [0x89, 0xBC, 0x0C, 0x00] = line "mov [si + 12], di" := by decide

/-- Leading byte 8A: V37, V43, V54, V57, V71, V84. -/
theorem test_line_8A :
    lineOf [0x8A, 0xC1] = line "mov al, cl" ∧
    lineOf [0x8A, 0xF5] = line "mov dh, ch" ∧
    lineOf [0x8A, 0x3D] = line "mov bh, [di]" ∧
    lineOf [0x8A, 0x26, 0x00, 0x80] = line "mov ah, [32768]" ∧
    lineOf [0x8A, 0x4E, 0x4B] = line "mov cl, [bp + 75]" ∧
    lineOf [0x8A, 0x87, 0x34, 0x12] = line "mov al, [bx + 4660]" := by decide

/-- Leading byte 8B: V39, V44, V48, V51, V58, V62, V76, V83. -/
theorem test_line_8B :
    lineOf [0x8B, 0xD9] = line "mov bx, cx" ∧
    lineOf [0x8B, 0x00] = line "mov ax, [bx + si]" ∧
    lineOf [0x8B, 0x04] = line "mov ax, [si]" ∧
    lineOf [0x8B, 0x07] = line "mov ax, [bx]" ∧
    lineOf [0x8B, 0x3E, 0xFF, 0x7F] = line "mov di, [32767]" ∧
    lineOf [0x8B, 0x46, 0x80] = line "mov ax, [bp - 128]" ∧
    lineOf [0x8B, 0x86, 0x00, 0x80] = line "mov ax, [bp - 32768]" ∧
    lineOf [0x8B, 0x8D, 0x6C, 0xF0] = line "mov cx, [di - 3988]" := by decide

/-- A zero displacement is kept (D5): V59, V72. -/
theorem test_line_zero_displacement :
    lineOf [0x8B, 0x46, 0x00] = line "mov ax, [bp + 0]" ∧
    lineOf [0x8B, 0x86, 0x00, 0x00] = line "mov ax, [bp + 0]" := by decide

/-- B0 to B7: V85, V86, V87, V88, V89, V90, V91, V92, V103. -/
theorem test_line_byte_immediates :
    lineOf [0xB0, 0x0C] = line "mov al, 12" ∧
    lineOf [0xB1, 0x0C] = line "mov cl, 12" ∧
    lineOf [0xB2, 0x0C] = line "mov dl, 12" ∧
    lineOf [0xB3, 0x0C] = line "mov bl, 12" ∧
    lineOf [0xB4, 0x0C] = line "mov ah, 12" ∧
    lineOf [0xB5, 0x0C] = line "mov ch, 12" ∧
    lineOf [0xB6, 0x0C] = line "mov dh, 12" ∧
    lineOf [0xB7, 0x0C] = line "mov bh, 12" ∧
    lineOf [0xB0, 0x80] = line "mov al, -128" := by decide

/-- B8 to BF: V93, V94, V95, V96, V97, V98, V99, V100, V110. -/
theorem test_line_word_immediates :
    lineOf [0xB8, 0x0C, 0x00] = line "mov ax, 12" ∧
    lineOf [0xB9, 0x0C, 0x00] = line "mov cx, 12" ∧
    lineOf [0xBA, 0x0C, 0x00] = line "mov dx, 12" ∧
    lineOf [0xBB, 0x0C, 0x00] = line "mov bx, 12" ∧
    lineOf [0xBC, 0x0C, 0x00] = line "mov sp, 12" ∧
    lineOf [0xBD, 0x0C, 0x00] = line "mov bp, 12" ∧
    lineOf [0xBE, 0x0C, 0x00] = line "mov si, 12" ∧
    lineOf [0xBF, 0x0C, 0x00] = line "mov di, 12" ∧
    lineOf [0xBA, 0x00, 0x80] = line "mov dx, -32768" := by decide

/-- Leading byte C6: V116, V120, V122, V126, V129, V131. -/
theorem test_line_C6 :
    lineOf [0xC6, 0x03, 0x07] = line "mov [bp + di], byte 7" ∧
    lineOf [0xC6, 0x85, 0x85, 0x03, 0x5B] = line "mov [di + 901], byte 91" ∧
    lineOf [0xC6, 0x06, 0x01, 0x0F, 0x0C] = line "mov [3841], byte 12" ∧
    lineOf [0xC6, 0x47, 0xF4, 0xF4] = line "mov [bx - 12], byte -12" ∧
    lineOf [0xC6, 0xC1, 0x0C] = line "mov cl, 12" ∧
    lineOf [0xC6, 0xC7, 0xFF] = line "mov bh, -1" := by decide

/-- Leading byte C7: V117, V119, V121, V124, V127, V130. -/
theorem test_line_C7 :
    lineOf [0xC7, 0x03, 0x07, 0x00] = line "mov [bp + di], word 7" ∧
    lineOf [0xC7, 0x46, 0x4B, 0x0C, 0x00] = line "mov [bp + 75], word 12" ∧
    lineOf [0xC7, 0x85, 0x85, 0x03, 0x5B, 0x01] = line "mov [di + 901], word 347" ∧
    lineOf [0xC7, 0x06, 0xFF, 0xFF, 0xFF, 0xFF] = line "mov [65535], word -1" ∧
    lineOf [0xC7, 0x47, 0x00, 0x00, 0x80] = line "mov [bx + 0], word -32768" ∧
    lineOf [0xC7, 0xC3, 0x0C, 0x00] = line "mov bx, 12" := by decide

/-- A0 to A3: V133, V134, V135, V136, V142, V143. -/
theorem test_line_accumulator :
    lineOf [0xA0, 0xFB, 0x09] = line "mov al, [2555]" ∧
    lineOf [0xA1, 0xFB, 0x09] = line "mov ax, [2555]" ∧
    lineOf [0xA2, 0xFB, 0x09] = line "mov [2555], al" ∧
    lineOf [0xA3, 0xFB, 0x09] = line "mov [2555], ax" ∧
    lineOf [0xA3, 0x00, 0x80] = line "mov [32768], ax" ∧
    lineOf [0xA0, 0xFF, 0xFF] = line "mov al, [65535]" := by decide

/-- Missing follow-on bytes: V146, V148, V150, V151. -/
theorem test_truncated_rm_reg :
    endOf [0x89] .halt = some (some (.truncatedInstruction 0 0x89), 1, .doneTruncated 0 0x89) ∧
    endOf [0x8B, 0x46] .halt = some (some (.truncatedInstruction 0 0x8B), 2, .doneTruncated 0 0x8B) ∧
    endOf [0x8B, 0x86, 0x34] .halt = some (some (.truncatedInstruction 0 0x8B), 3, .doneTruncated 0 0x8B) ∧
    endOf [0x8B, 0x0E] .halt = some (some (.truncatedInstruction 0 0x8B), 2, .doneTruncated 0 0x8B) := by decide

/-- Missing follow-on bytes: V153, V154, V155. -/
theorem test_truncated_imm_reg :
    endOf [0xB1] .halt = some (some (.truncatedInstruction 0 0xB1), 1, .doneTruncated 0 0xB1) ∧
    endOf [0xB9] .halt = some (some (.truncatedInstruction 0 0xB9), 1, .doneTruncated 0 0xB9) ∧
    endOf [0xB9, 0x0C] .halt = some (some (.truncatedInstruction 0 0xB9), 2, .doneTruncated 0 0xB9) := by decide

/-- Missing follow-on bytes: V156, V157, V159, V164, V168, V170. -/
theorem test_truncated_imm_mem :
    endOf [0xC6] .halt = some (some (.truncatedInstruction 0 0xC6), 1, .doneTruncated 0 0xC6) ∧
    endOf [0xC6, 0x03] .halt = some (some (.truncatedInstruction 0 0xC6), 2, .doneTruncated 0 0xC6) ∧
    endOf [0xC6, 0x46, 0x4B] .halt = some (some (.truncatedInstruction 0 0xC6), 3, .doneTruncated 0 0xC6) ∧
    endOf [0xC7, 0x85, 0x85, 0x03, 0x5B] .halt = some (some (.truncatedInstruction 0 0xC7), 5, .doneTruncated 0 0xC7) ∧
    endOf [0xC7, 0x06, 0x01, 0x0F, 0x0C] .halt = some (some (.truncatedInstruction 0 0xC7), 5, .doneTruncated 0 0xC7) ∧
    endOf [0xC7, 0xC3, 0x0C] .halt = some (some (.truncatedInstruction 0 0xC7), 3, .doneTruncated 0 0xC7) := by decide

/-- Missing follow-on bytes: V171, V172, V174. -/
theorem test_truncated_accumulator :
    endOf [0xA0] .halt = some (some (.truncatedInstruction 0 0xA0), 1, .doneTruncated 0 0xA0) ∧
    endOf [0xA0, 0xFB] .halt = some (some (.truncatedInstruction 0 0xA0), 2, .doneTruncated 0 0xA0) ∧
    endOf [0xA3, 0xFB] .halt = some (some (.truncatedInstruction 0 0xA3), 2, .doneTruncated 0 0xA3) := by decide

/-- An unrecognized byte, under HALT: V175, V176, V177, V178, V179, V180. -/
theorem test_unrecognized_halts :
    endOf [0x00] .halt = some (some (.unrecognized 0 0x00), 1, .doneUnrecognized 0 0x00) ∧
    endOf [0x00, 0x89, 0xD9] .halt = some (some (.unrecognized 0 0x00), 1, .doneUnrecognized 0 0x00) ∧
    endOf [0x8C, 0xD8] .halt = some (some (.unrecognized 0 0x8C), 1, .doneUnrecognized 0 0x8C) ∧
    endOf [0x26, 0x8B, 0x07] .halt = some (some (.unrecognized 0 0x26), 1, .doneUnrecognized 0 0x26) ∧
    endOf [0xC5] .halt = some (some (.unrecognized 0 0xC5), 1, .doneUnrecognized 0 0xC5) ∧
    endOf [0xFF] .halt = some (some (.unrecognized 0 0xFF), 1, .doneUnrecognized 0 0xFF) := by decide

/-- SKIP_ONE and PLACEHOLDER keep the pass running (R67). -/
theorem test_unrecognized_goes_on :
    endOf [0x00, 0x89] .skipOne = some (some (.unrecognized 0 0x00), 1, .running) ∧
    endOf [0xFF] .placeholder = some (some (.unrecognized 0 0xFF), 1, .running) := by decide

/-- V145. -/
theorem test_end_of_stream :
    endOf [] .halt = some (some (.endOfStream 0), 0, .doneOk) ∧
    endOf [] .skipOne = some (some (.endOfStream 0), 0, .doneOk) := by decide

theorem test_step_after_the_end :
    step { State.reset with final := .doneOk } = .fault .passEnded := rfl

/-- Programs P2 and P3: lines in instruction order, the second of 11 bytes in all. -/
theorem test_second_attempt :
    (run 2 (State.launch [0x89, 0xD9, 0xB1, 0x0C] .halt)).out = ascii "mov cx, bx" ++ [0x0A] ++ ascii "mov cl, 12" ++ [0x0A] ∧
    (runToEnd (State.launch [0x89, 0xD9] .halt)).out.length = 11 := by decide

/-! ### Witnesses: the hypotheses of the obligations can be met, at the boundaries of each clause -/

theorem witness_FieldExtractorByArithmetic :
    classify 0x88 = .rmReg ∧
    classify 0x8B = .rmReg ∧
    classify 0xB0 = .immReg ∧
    classify 0xBF = .immReg ∧
    classify 0xC6 = .immMem ∧
    classify 0xC7 = .immMem ∧
    classify 0xA0 = .memAcc ∧
    classify 0xA1 = .memAcc ∧
    classify 0xA2 = .accMem ∧
    classify 0xA3 = .accMem ∧
    classify 0xA4 = .noShape := by decide

theorem witness_RegisterNamesNeverAlias :
    fmtReg 7 .word = fmtReg 7 .word := rfl

theorem witness_DecimalNumeralsAreMinimal :
    (dec 0).head? = some 0x30 ∧
    (0x39 : Byte) ∈ dec 9 := by decide

theorem witness_MemoryOperandsRenderSignAndMagnitude :
    (0x7FFF : U16).toNat < 32768 ∧
    (0x0000 : U16).toNat < 32768 ∧
    32768 ≤ (0x8000 : U16).toNat ∧
    32768 ≤ (0xFFFF : U16).toNat ∧
    fmtMem 6 (some 0x7FFF) = ascii "[bp + 32767]" ∧
    fmtMem 6 (some 0x8000) = ascii "[bp - 32768]" := by decide

theorem witness_ImmediatesRenderSignedWithQualifier :
    (0x7FFF : U16).toNat < 32768 ∧
    32768 ≤ (0x8000 : U16).toNat ∧
    fmtImm 0x7FFF .word true = ascii "word 32767" ∧
    fmtImm 0x8000 .word false = ascii "-32768" := by decide

theorem witness_DecodeOfEncodeIsTheInstruction :
    (Instr.mov88BaseLow 7 3).wf = true ∧
    (Instr.movC7BaseMid 7 4 0xFFFF).wf = true ∧
    (Instr.unrecognizedE0toFF 0xFF).wf = true := by decide

/-- V121 with one byte after it. -/
theorem witness_EncodeOfDecodeIsTheBytes :
    decode [0xC7, 0x85, 0x85, 0x03, 0x5B, 0x01, 0x90] = .instr (.movC7Disp16 0 5 0x0385 0x015B) [0x90] := by decide

theorem witness_DecodingDependsOnOwnBytesOnly :
    decode [0x89, 0xD9, 0x00] = .instr (.mov89Reg 3 1) [0x00] ∧
    decode [0x89, 0xD9, 0xFF, 0xFF] = .instr (.mov89Reg 3 1) [0xFF, 0xFF] := by decide

theorem witness_OpcodeTableRowsPartitionTheDecoder :
    4 ≤ ([0, 0, 0, 0] : List Byte).length := by decide

theorem witness_InstructionLengthFromTwoBytes :
    (Instr.movC7Direct 0 0x0F01 0x000C).wf = true ∧
    Claims.instrLen 0xC7 0x06 = 6 ∧
    (Instr.unrecognized00to7F 0x7F).wf = true ∧
    Claims.instrLen 0x7F 0 = 1 ∧
    (Instr.movB0 0).wf = true ∧
    Claims.instrLen 0xB0 0 = 2 := by decide

theorem witness_StepRunsTheDecodedInstruction :
    (State.launch [0x89, 0xD9] .halt).ended = false ∧
    (Instr.mov89Reg 3 1).wf = true ∧
    decode (State.launch [0x89, 0xD9] .halt).stream = .instr (.mov89Reg 3 1) [] := by decide

theorem witness_UnrecognizedRowsCompleteAsPolicySays :
    (State.launch [0x90] .halt).final = .running ∧
    (State.launch [0x90] .skipOne).final = .running ∧
    (State.launch [0x90] .placeholder).final = .running := by decide

theorem witness_MovFrame :
    (Instr.mov88BaseLow 0 0).ctorIdx < 62 ∧ (Instr.movA3 0).ctorIdx < 62 ∧
    ∃ t, exec (.movA3 0) State.reset = .next t :=
  ⟨by decide, by decide, _, rfl⟩

theorem witness_UnrecognizedFrame :
    62 ≤ (Instr.unrecognized00to7F 0).ctorIdx ∧ 62 ≤ (Instr.unrecognizedE0toFF 0xFF).ctorIdx ∧
    (State.launch [0x90] .skipOne).policy ≠ .halt ∧ (State.launch [0x90] .halt).policy ≠ .placeholder ∧
    (State.launch [0x90] .placeholder).policy = .placeholder ∧
    ∃ t, exec (.unrecognizedE0toFF 0xFF) State.reset = .next t :=
  ⟨by decide, by decide, by decide, by decide, rfl, _, rfl⟩

theorem witness_LaunchInputsNeverChange : ∃ t, step (State.launch [0x8B, 0x46, 0xB5] .halt) = .next t :=
  ⟨_, rfl⟩

theorem witness_RmRegStepFromBytes :
    (State.launch [0x88] .halt).final = .running ∧
    (State.launch [0x88] .halt).src.wf = true ∧
    classify 0x88 = .rmReg ∧
    (State.launch [0x88] .halt).stream = 0x88 :: [] ∧
    (State.launch [0x8B, 0x46, 0xB5] .halt).final = .running ∧
    (State.launch [0x8B, 0x46, 0xB5] .halt).src.wf = true ∧
    classify 0x8B = .rmReg ∧
    (State.launch [0x8B, 0x46, 0xB5] .halt).stream = 0x8B :: [0x46, 0xB5] ∧
    (State.launch [0x8B, 0x0E, 0x01] .halt).final = .running ∧
    (State.launch [0x8B, 0x0E, 0x01] .halt).src.wf = true ∧
    (State.launch [0x8B, 0x0E, 0x01] .halt).stream = 0x8B :: [0x0E, 0x01] := by decide

theorem witness_ImmRegStepFromBytes :
    (State.launch [0xB0] .halt).final = .running ∧
    (State.launch [0xB0] .halt).src.wf = true ∧
    classify 0xB0 = .immReg ∧
    (State.launch [0xB0] .halt).stream = 0xB0 :: [] ∧
    (State.launch [0xB7, 0xFF] .halt).final = .running ∧
    (State.launch [0xB7, 0xFF] .halt).src.wf = true ∧
    classify 0xB7 = .immReg ∧
    (State.launch [0xB7, 0xFF] .halt).stream = 0xB7 :: [0xFF] ∧
    (State.launch [0xBF, 0xB5, 0x00] .halt).final = .running ∧
    (State.launch [0xBF, 0xB5, 0x00] .halt).src.wf = true ∧
    classify 0xBF = .immReg ∧
    (State.launch [0xBF, 0xB5, 0x00] .halt).stream = 0xBF :: [0xB5, 0x00] := by decide

theorem witness_ImmMemStepFromBytes :
    (State.launch [0xC6] .halt).final = .running ∧
    (State.launch [0xC6] .halt).src.wf = true ∧
    classify 0xC6 = .immMem ∧
    (State.launch [0xC6] .halt).stream = 0xC6 :: [] ∧
    (State.launch [0xC7, 0x06, 0x01, 0x0F, 0x0C, 0x00] .halt).final = .running ∧
    (State.launch [0xC7, 0x06, 0x01, 0x0F, 0x0C, 0x00] .halt).src.wf = true ∧
    classify 0xC7 = .immMem ∧
    (State.launch [0xC7, 0x06, 0x01, 0x0F, 0x0C, 0x00] .halt).stream = 0xC7 :: [0x06, 0x01, 0x0F, 0x0C, 0x00] ∧
    (State.launch [0xC6, 0x46, 0x4B] .halt).final = .running ∧
    (State.launch [0xC6, 0x46, 0x4B] .halt).src.wf = true ∧
    (State.launch [0xC6, 0x46, 0x4B] .halt).stream = 0xC6 :: [0x46, 0x4B] := by decide

theorem witness_AccumulatorStepFromBytes :
    (State.launch [0xA0, 0xFB, 0x09] .halt).final = .running ∧
    (State.launch [0xA0, 0xFB, 0x09] .halt).src.wf = true ∧
    0xA0 ≤ (0xA0 : Byte).toNat ∧
    (0xA3 : Byte).toNat ≤ 0xA3 ∧
    (State.launch [0xA0, 0xFB, 0x09] .halt).stream = 0xA0 :: [0xFB, 0x09] ∧
    (State.launch [0xA3, 0xFB] .halt).stream = 0xA3 :: [0xFB] ∧
    (State.launch [0xA2] .halt).stream = 0xA2 :: [] := by decide

theorem witness_EndOfStreamStep :
    (State.launch [] .halt).final = .running ∧ (State.launch [] .halt).src.wf = true ∧
    (State.launch [] .halt).off = (State.launch [] .halt).src.len ∧
    (State.launch [0x90] .halt).src.wf = true ∧ (State.launch [0x90] .halt).off < (State.launch [0x90] .halt).src.len ∧
    ∃ t, step (State.launch [0x90] .halt) = .next t :=
  ⟨rfl, rfl, rfl, rfl, by decide, _, rfl⟩

/-- Both clauses at their boundary: the last byte is there, or is the one that is missing. -/
theorem witness_FramingProperty :
    (State.launch [0x89, 0xD9] .halt).final = .running ∧
    (State.launch [0x89, 0xD9] .halt).src.wf = true ∧
    (State.launch [0x89, 0xD9] .halt).src.read (State.launch [0x89, 0xD9] .halt).off = some 0x89 ∧
    classify 0x89 ≠ .noShape ∧
    0 + Claims.instrLen 0x89 0xD9 ≤ (State.launch [0x89, 0xD9] .halt).src.len ∧
    (State.launch [0x89] .halt).src.read 0 = some 0x89 ∧
    (State.launch [0x89] .halt).src.len < 0 + Claims.instrLen 0x89 0 := by decide

theorem witness_UnrecognizedByteStep :
    (State.launch [0xC5] .skipOne).final = .running ∧
    (State.launch [0xC5] .skipOne).src.wf = true ∧
    (State.launch [0xC5] .skipOne).src.read (State.launch [0xC5] .skipOne).off = some 0xC5 ∧
    classify 0xC5 = .noShape := by decide

/-- One launch for each result of the step: decoded, end of the stream, truncated, unrecognized. -/
theorem witness_CursorAfterEveryAttempt :
    (cursorInBounds (State.launch [0xC6, 0xC1, 0x0C] .halt) = true ∧
      cursorInBounds (State.launch [] .halt) = true ∧
      cursorInBounds (State.launch [0x8B, 0x46] .halt) = true ∧
      cursorInBounds (State.launch [0xFF] .skipOne) = true) ∧
    (∃ t, step (State.launch [0xC6, 0xC1, 0x0C] .halt) = .next t) ∧
    (∃ t, step (State.launch [] .halt) = .next t) ∧
    (∃ t, step (State.launch [0x8B, 0x46] .halt) = .next t) ∧
    (∃ t, step (State.launch [0xFF] .skipOne) = .next t) :=
  ⟨⟨by decide, by decide, by decide, by decide⟩, ⟨_, rfl⟩, ⟨_, rfl⟩, ⟨_, rfl⟩, _, rfl⟩

/-- One launch for each result of the step: decoded, end of the stream, truncated, unrecognized. -/
theorem witness_CursorStaysInBounds :
    (cursorInBounds (State.launch [0xC6, 0xC1, 0x0C] .halt) = true ∧
      cursorInBounds (State.launch [] .halt) = true ∧
      cursorInBounds (State.launch [0x8B, 0x46] .halt) = true ∧
      cursorInBounds (State.launch [0xFF] .skipOne) = true) ∧
    (∃ t, step (State.launch [0xC6, 0xC1, 0x0C] .halt) = .next t) ∧
    (∃ t, step (State.launch [] .halt) = .next t) ∧
    (∃ t, step (State.launch [0x8B, 0x46] .halt) = .next t) ∧
    (∃ t, step (State.launch [0xFF] .skipOne) = .next t) :=
  ⟨⟨by decide, by decide, by decide, by decide⟩, ⟨_, rfl⟩, ⟨_, rfl⟩, ⟨_, rfl⟩, _, rfl⟩

/-- One launch for each result of the step: decoded, end of the stream, truncated, unrecognized. -/
theorem witness_OutStaysTheListingOfRecs :
    (outIsListing (State.launch [0xC6, 0xC1, 0x0C] .halt) = true ∧
      outIsListing (State.launch [] .halt) = true ∧
      outIsListing (State.launch [0x8B, 0x46] .halt) = true ∧
      outIsListing (State.launch [0xFF] .skipOne) = true) ∧
    (∃ t, step (State.launch [0xC6, 0xC1, 0x0C] .halt) = .next t) ∧
    (∃ t, step (State.launch [] .halt) = .next t) ∧
    (∃ t, step (State.launch [0x8B, 0x46] .halt) = .next t) ∧
    (∃ t, step (State.launch [0xFF] .skipOne) = .next t) :=
  ⟨⟨by decide, by decide, by decide, by decide⟩, ⟨_, rfl⟩, ⟨_, rfl⟩, ⟨_, rfl⟩, _, rfl⟩

/-- One launch for each result of the step: decoded, end of the stream, truncated, unrecognized. -/
theorem witness_RecordsStayWithinTheShapes :
    (recordsFit (State.launch [0xC6, 0xC1, 0x0C] .halt) = true ∧
      recordsFit (State.launch [] .halt) = true ∧
      recordsFit (State.launch [0x8B, 0x46] .halt) = true ∧
      recordsFit (State.launch [0xFF] .skipOne) = true) ∧
    (∃ t, step (State.launch [0xC6, 0xC1, 0x0C] .halt) = .next t) ∧
    (∃ t, step (State.launch [] .halt) = .next t) ∧
    (∃ t, step (State.launch [0x8B, 0x46] .halt) = .next t) ∧
    (∃ t, step (State.launch [0xFF] .skipOne) = .next t) :=
  ⟨⟨by decide, by decide, by decide, by decide⟩, ⟨_, rfl⟩, ⟨_, rfl⟩, ⟨_, rfl⟩, _, rfl⟩

/-- One launch for each result of the step: decoded, end of the stream, truncated, unrecognized. -/
theorem witness_StatusStaysConsistent :
    (cursorInBounds (State.launch [0xC6, 0xC1, 0x0C] .halt) = true ∧
      cursorInBounds (State.launch [] .halt) = true ∧
      cursorInBounds (State.launch [0x8B, 0x46] .halt) = true ∧
      cursorInBounds (State.launch [0xFF] .skipOne) = true) ∧
    (∃ t, step (State.launch [0xC6, 0xC1, 0x0C] .halt) = .next t) ∧
    (∃ t, step (State.launch [] .halt) = .next t) ∧
    (∃ t, step (State.launch [0x8B, 0x46] .halt) = .next t) ∧
    (∃ t, step (State.launch [0xFF] .skipOne) = .next t) :=
  ⟨⟨by decide, by decide, by decide, by decide⟩, ⟨_, rfl⟩, ⟨_, rfl⟩, ⟨_, rfl⟩, _, rfl⟩

/-- One launch for each result of the step: decoded, end of the stream, truncated, unrecognized. -/
theorem witness_OutStaysText :
    (outIsText (State.launch [0xC6, 0xC1, 0x0C] .halt) = true ∧
      outIsText (State.launch [] .halt) = true ∧
      outIsText (State.launch [0x8B, 0x46] .halt) = true ∧
      outIsText (State.launch [0xFF] .skipOne) = true) ∧
    (∃ t, step (State.launch [0xC6, 0xC1, 0x0C] .halt) = .next t) ∧
    (∃ t, step (State.launch [] .halt) = .next t) ∧
    (∃ t, step (State.launch [0x8B, 0x46] .halt) = .next t) ∧
    (∃ t, step (State.launch [0xFF] .skipOne) = .next t) :=
  ⟨⟨by decide, by decide, by decide, by decide⟩, ⟨_, rfl⟩, ⟨_, rfl⟩, ⟨_, rfl⟩, _, rfl⟩

/-- A state after one decoded instruction, with an unrecognized byte next, under the policy that writes other lines. -/
def midPass : State :=
  { State.launch [0x90] .placeholder with
    out := ascii "mov cx, bx" ++ [0x0A]
    recs := [⟨.mov, .register 1 .word, .register 3 .word, false⟩] }

theorem witness_OutStaysTheListingOfRecs_lines :
    outIsListing midPass = true ∧ OutIsLines midPass ∧ ∃ t, step midPass = .next t :=
  ⟨by decide, ⟨[.ofRecord ⟨.mov, .register 1 .word, .register 3 .word, false⟩], by decide, rfl, by decide⟩, _, rfl⟩

theorem witness_FailedAttemptsOfTheBlock :
    (State.launch [] .halt).src.wf = true ∧
    (State.launch [] .halt).off = (State.launch [] .halt).src.len ∧
    (State.launch [0xB9, 0x0C] .halt).src.read 0 = some 0xB9 ∧
    classify 0xB9 ≠ .noShape ∧
    (State.launch [0xB9, 0x0C] .halt).src.len < 0 + Claims.instrLen 0xB9 0x0C ∧
    (State.launch [0x8C] .halt).src.read 0 = some 0x8C ∧
    classify 0x8C = .noShape := by decide

theorem witness_AttemptsDependOnBytesAheadOnly :
    (State.launch [0x90, 0x89, 0xD9] .halt).final = .running ∧
    ({ State.launch [0x90, 0x89, 0xD9] .halt with off := 1 } : State).stream = (State.launch [0x89, 0xD9] .halt).stream ∧
    (State.launch [0x90, 0x89, 0xD9] .halt).policy = (State.launch [0x89, 0xD9] .halt).policy := by decide

theorem witness_IgnoredRegFieldHasNoEffect :
    (State.launch [0xC6, 0b00_000_011, 0x07] .halt).final = .running ∧ classify 0xC6 = .immMem ∧
    (State.launch [0xC6, 0b00_000_011, 0x07] .halt).stream = 0xC6 :: 0b00_000_011 :: [0x07] ∧
    (Memory.ofBytes [0xC6, 0b00_111_011, 0x07]).bytesFrom 0 = 0xC6 :: 0b00_111_011 :: [0x07] ∧
    modOf 0b00_000_011 = modOf 0b00_111_011 ∧ rmOf 0b00_000_011 = rmOf 0b00_111_011 ∧
    ∃ t, step (State.launch [0xC6, 0b00_000_011, 0x07] .halt) = .next t :=
  ⟨rfl, rfl, rfl, rfl, rfl, rfl, _, rfl⟩

theorem witness_CursorContract :
    (State.launch [0x90] .halt).src.wf = true ∧
    (State.launch [0x90] .halt).off < (State.launch [0x90] .halt).src.len ∧
    (State.launch [] .halt).src.len ≤ (State.launch [] .halt).off := by decide

theorem witness_ResolverByMode :
    (State.launch [0x34, 0x12] .halt).src.wf = true ∧
    Claims.modRmOperand 0b00_000_110 .word (State.launch [0x34, 0x12] .halt).stream = some (.directAddress 0x1234, 2) ∧
    Claims.modRmOperand 0b10_000_000 .word (State.launch [0x34] .halt).stream = none := by decide

theorem witness_StepRefinesThePseudocode :
    (State.launch [0xA1, 0xFB, 0x09] .halt).src.wf = true ∧
    (State.launch [0xA1, 0xFB, 0x09] .halt).final = .running := by decide

theorem witness_AttemptsAfterTheEnd :
    cursorInBounds (State.launch [] .halt) = true ∧
    (decodeOne (State.launch [] .halt)).res = some (.endOfStream 0) ∧
    cursorInBounds (State.launch [0x8B] .halt) = true ∧
    (decodeOne (State.launch [0x8B] .halt)).res = some (.truncatedInstruction 0 0x8B) := by decide

theorem witness_EveryPassEnds :
    cursorInBounds (State.launch [0x90, 0x90] .skipOne) = true ∧
    cursorInBounds (State.launch [] .halt) = true := by decide

theorem witness_CleanPassMeansConcatenation :
    (runToEnd (State.launch [0x89, 0xD9, 0xB1, 0x0C] .halt)).final = .doneOk ∧
    ∀ i ∈ [Instr.mov89Reg 3 1, Instr.movB1 12], i.wf = true ∧ i.ctorIdx < 62 := by decide

end Sys2Proof.Tests
end

section
/-! When a step runs, what it answers, and what every step keeps (00_scope.md). -/

namespace Sys2Proof.Machine

open Sys2Proof

variable {s t : State}

/-- While the pass runs, a decoded instruction is run as it is. -/
theorem step_of_decode {i : Instr} {rest : List Byte} (hs : s.ended = false)
    (hd : decode s.stream = .instr i rest) : step s = exec i s := by
  simp [step, hs, hd]

/-- Once the pass is over the machine only stops (U12). -/
theorem step_of_ended (hs : s.ended = true) : step s = .fault .passEnded := by
  simp [step, hs]

/-- The pass is over exactly when FINAL has left Running. -/
theorem State.ended_iff (s : State) : s.ended = true ↔ s.final ≠ .running := by
  rw [Ne, ← s.ended_eq_false_iff, Bool.not_eq_false]

/-- Whatever a step reads, it ends in the one shared operation `conclude`. -/
theorem step_eq_conclude (h : step s = .next t) : ∃ r off, t = s.conclude r off := by
  obtain ⟨-, ⟨f, -, -, -, ht⟩ | ⟨-, ht⟩ | ⟨lead, -, -, -, ht⟩⟩ := step_cases h
  · exact ⟨_, _, ht⟩
  · exact ⟨_, _, ht⟩
  · exact ⟨_, _, ht⟩

/-- OUT only grows (R18). -/
theorem State.out_prefix_conclude (s : State) (r : Result) (off : Nat) : s.out <+: (s.conclude r off).out := by
  obtain ⟨_, _, _, -, -, hout, -⟩ | ⟨-, hout⟩ | ⟨_, _, -, -, -, hout, -⟩ := s.conclude_cases r off
  · exact hout ▸ List.prefix_append ..
  · exact hout ▸ List.prefix_rfl
  · exact hout ▸ List.prefix_append ..

/-- RECS only grows (R18). -/
theorem State.recs_prefix_conclude (s : State) (r : Result) (off : Nat) : s.recs <+: (s.conclude r off).recs := by
  obtain ⟨_, _, _, -, hrecs, -⟩ | ⟨hrecs, -⟩ | ⟨_, _, -, -, hrecs, -⟩ := s.conclude_cases r off
  · exact hrecs ▸ List.prefix_append ..
  · exact hrecs ▸ List.prefix_rfl
  · exact hrecs ▸ List.prefix_rfl

end Sys2Proof.Machine
end

section
/-! What the Formatter writes stays within the byte set of R134, function by function. -/

namespace Sys2Proof.Machine

open Sys2Proof

/-- Every byte of the text is one of R134's set. -/
def lineText (t : Text) : Bool := t.all lineByte

/-- Every byte of the text is ASCII (R8). -/
def asciiText (t : Text) : Bool := t.all fun b => decide (b.toNat < 128)

@[simp] theorem lineText_append (a b : Text) : lineText (a ++ b) = (lineText a && lineText b) := List.all_append

@[simp] theorem asciiText_append (a b : Text) : asciiText (a ++ b) = (asciiText a && asciiText b) := List.all_append

/-- The byte set of R134 is a part of ASCII. -/
theorem toNat_lt_of_lineByte : ∀ b : Byte, lineByte b = true → b.toNat < 128 := by decide

theorem asciiText_of_lineText {a : Text} (h : lineText a = true) : asciiText a = true := by
  simp only [lineText, asciiText, List.all_eq_true, decide_eq_true_eq] at h ⊢
  exact fun b hb => toNat_lt_of_lineByte b (h b hb)

/-- The invariant `outIsText`, in the two predicates of texts. -/
theorem outIsText_iff (s : State) :
    outIsText s = true ↔ asciiText s.out = true ∧ (s.policy = .placeholder ∨ lineText s.out = true) := by
  simp [outIsText, asciiText, lineText]

theorem lineText_digit : ∀ d < 10, lineText [digit d] = true := by decide

theorem lineText_decDigits (fuel n : Nat) : lineText (decDigits fuel n) = true := by
  induction fuel generalizing n with
  | zero => rfl
  | succ fuel ih =>
    unfold decDigits
    split
    next hn => exact lineText_digit n hn
    next => simp [ih, lineText_digit (n % 10) (Nat.mod_lt n (by decide))]

@[simp] theorem lineText_dec (n : Nat) : lineText (dec n) = true := lineText_decDigits _ n

@[simp] theorem lineText_sdec (z : Int) : lineText (sdec z) = true := by
  have hminus : lineText (ascii "-") = true := by decide
  unfold sdec
  split
  · exact lineText_dec _
  · simp [hminus]

@[simp] theorem lineText_fmtReg (id : Code) (width : Width) : lineText (fmtReg id width) = true := by
  have h8 : ∀ id, lineText (entry reg8 id) = true := by decide
  have h16 : ∀ id, lineText (entry reg16 id) = true := by decide
  cases width with
  | byte => exact h8 id
  | word => exact h16 id

@[simp] theorem lineText_fmtBase : ∀ rm : Code, lineText (fmtBase rm) = true := by decide

@[simp] theorem lineText_openBracket : lineText (ascii "[") = true := by decide

@[simp] theorem lineText_closeBracket : lineText (ascii "]") = true := by decide

@[simp] theorem lineText_fmtMem (base : Code) (disp : Option U16) : lineText (fmtMem base disp) = true := by
  have hplus : lineText (ascii " + ") = true := by decide
  have hminus : lineText (ascii " - ") = true := by decide
  cases disp with
  | none => simp [fmtMem]
  | some d =>
    simp only [fmtMem]
    split
    · simp [hplus]
    · simp [hminus]

@[simp] theorem lineText_fmtDirect (addr : U16) : lineText (fmtDirect addr) = true := by
  simp [fmtDirect]

@[simp] theorem lineText_qualifier (width : Width) : lineText (qualifier width) = true := by
  cases width <;> decide

@[simp] theorem lineText_fmtImm (value : U16) (width : Width) (qualified : Bool) :
    lineText (fmtImm value width qualified) = true := by
  cases qualified <;> simp [fmtImm]

@[simp] theorem lineText_fmtOperand (op : Operand) (qualified : Bool) :
    lineText (fmtOperand op qualified) = true := by
  cases op with
  | register id width => exact lineText_fmtReg id width
  | memory base disp => exact lineText_fmtMem base disp
  | directAddress addr => exact lineText_fmtDirect addr
  | immediate value width => exact lineText_fmtImm value width qualified

@[simp] theorem lineText_fmtMnemonic (m : Mnemonic) : lineText (fmtMnemonic m) = true := by
  cases m; decide

@[simp] theorem lineText_newline : lineText [newline] = true := by decide

/-- The line of a record is made of R134's bytes. -/
@[simp] theorem lineText_fmtInstr (r : DecodedInstruction) : lineText (fmtInstr r) = true := by
  have hspace : lineText (ascii " ") = true := by decide
  have hcomma : lineText (ascii ", ") = true := by decide
  simp [fmtInstr, hspace, hcomma]

/-- A placeholder line is ASCII, whatever its free text (R8). -/
@[simp] theorem asciiText_placeholderLine (lead : Byte) : asciiText (placeholderLine lead) = true := by
  simp only [asciiText, placeholderLine, List.all_eq_true, List.mem_filter, Bool.and_eq_true]
  exact fun b hb => hb.2.1

variable {s t : State}

/-- `outIsText` survives an ASCII line, of R134's bytes unless the policy is PLACEHOLDER. -/
theorem outIsText_of_out_append {line : Text} (hs : outIsText s = true) (hpolicy : t.policy = s.policy)
    (hout : t.out = s.out ++ line) (hascii : asciiText line = true)
    (hline : s.policy = .placeholder ∨ lineText line = true) : outIsText t = true := by
  rw [outIsText_iff] at hs ⊢
  obtain ⟨hsa, hsl⟩ := hs
  refine ⟨by simp [hout, hsa, hascii], ?_⟩
  rw [hpolicy, hout, lineText_append, Bool.and_eq_true]
  exact or_and_left.mpr ⟨hsl, hline⟩

/-- Every end of an attempt keeps `outIsText`. -/
theorem outIsText_conclude (hs : outIsText s = true) (r : Result) (off : Nat) :
    outIsText (s.conclude r off) = true := by
  have hpolicy := s.conclude_policy r off
  obtain ⟨record, _, _, -, -, hout, -⟩ | ⟨-, hout⟩ | ⟨_, lead, -, hp, -, hout, -⟩ := s.conclude_cases r off
  · have hline : lineText (fmtInstr record ++ [newline]) = true := by simp
    exact outIsText_of_out_append hs hpolicy hout (asciiText_of_lineText hline) (.inr hline)
  · exact outIsText_of_out_append hs hpolicy (hout.trans (List.append_nil _).symm) rfl (.inr rfl)
  · have hascii : asciiText (placeholderLine lead ++ [newline]) = true := by
      simp [asciiText_of_lineText lineText_newline]
    exact outIsText_of_out_append hs hpolicy hout hascii (.inl hp)

end Sys2Proof.Machine
end

section
/-! The obligations of 00_scope.md, settled. -/

namespace Sys2Proof.Machine

open Sys2Proof

/-- Settles O43: a step ends in `conclude`, whose line is a record's or, under PLACEHOLDER, a placeholder's. -/
theorem outStaysText : Obligations.OutStaysText := by
  intro s t hs h
  obtain ⟨r, off, rfl⟩ := step_eq_conclude h
  exact outIsText_conclude hs r off

/-- Settles O29: `conclude` writes no launch input and only appends to the outputs. -/
theorem launchInputsNeverChange : Obligations.LaunchInputsNeverChange := by
  intro s t h
  obtain ⟨r, off, rfl⟩ := step_eq_conclude h
  have hsrc := s.conclude_src r off
  exact ⟨hsrc, by rw [hsrc], fun a => by rw [hsrc], s.conclude_policy r off, s.out_prefix_conclude r off,
    s.recs_prefix_conclude r off⟩

/-- Settles O46, by whether FINAL is Running. -/
theorem stepsStopExactlyWhenThePassIsOver : Obligations.StepsStopExactlyWhenThePassIsOver := by
  intro s
  by_cases hs : s.final = .running
  · obtain ⟨t, ht⟩ := step_of_running hs
    simp [ht, hs]
  · have hstep := step_of_ended (s.ended_iff.mpr hs)
    simp [hstep, hs]

/-- Settles O16: `step` hands the decoded instruction to `exec`. -/
theorem stepRunsTheDecodedInstruction : Obligations.StepRunsTheDecodedInstruction := by
  intro s i rest hs _ hd
  exact step_of_decode hs hd

end Sys2Proof.Machine
end

section
/-! Formats: the records that can occur (R19), and lengths from two bytes (R50). -/

namespace Sys2Proof

open Sys2Proof.Machine

/-- A widened byte is the sign extension of its low byte. -/
@[simp] theorem immediateFits_sext16 : ∀ imm : Byte, immediateFits (sext16 imm) .byte = true := by decide

@[simp] theorem immediateFits_word (imm : U16) : immediateFits imm .word = true := rfl

/-- What an operand side resolves to: a register of the width, a memory operand of R19's table, or an address. -/
theorem RmForm.operand_cases (w : Bool) {f : RmForm} (hf : f.ok = true) :
    (∃ rm, f.operand w = .register rm (widthOf w)) ∨
    (∃ base disp, memoryFits base disp = true ∧ f.operand w = .memory base disp) ∨
    ∃ addr, f.operand w = .directAddress addr := by
  cases f with
  | baseLow rm =>
    have h6 := (code_cases_low rm (by simpa [RmForm.ok] using hf)).1
    exact .inr (.inl ⟨rm, none, by simpa [memoryFits] using h6, rfl⟩)
  | baseMid rm =>
    have h6 := (code_cases_mid rm (by simpa [RmForm.ok] using hf)).1
    exact .inr (.inl ⟨rm, none, by simpa [memoryFits] using h6, rfl⟩)
  | baseBx => exact .inr (.inl ⟨7, none, by decide, rfl⟩)
  | direct addr => exact .inr (.inr ⟨addr, rfl⟩)
  | disp8 rm disp => exact .inr (.inl ⟨rm, some (sext16 disp), by simp [memoryFits], rfl⟩)
  | disp16 rm disp => exact .inr (.inl ⟨rm, some disp, by simp [memoryFits], rfl⟩)
  | register rm => exact .inl ⟨rm, rfl⟩

theorem recordFits_rmRegRecord (d w : Bool) (reg : Code) {f : RmForm} (hf : f.ok = true) :
    recordFits (rmRegRecord d w reg (f.operand w)) = true := by
  obtain ⟨rm, h⟩ | ⟨base, disp, hfits, h⟩ | ⟨addr, h⟩ := f.operand_cases w hf
  · cases d <;> simp [h, rmRegRecord, recordFits, regOperand]
  · cases d <;> simp [h, rmRegRecord, recordFits, regOperand, hfits]
  · cases d <;> simp [h, rmRegRecord, recordFits, regOperand]

theorem recordFits_immMemRecord (w : Bool) {value : U16} (hv : immediateFits value (widthOf w) = true) {f : RmForm}
    (hf : f.ok = true) : recordFits (immMemRecord (f.operand w) (.immediate value (widthOf w))) = true := by
  obtain ⟨rm, h⟩ | ⟨base, disp, hfits, h⟩ | ⟨addr, h⟩ := f.operand_cases w hf
  · simp [h, immMemRecord, recordFits, qualifiedFor, hv]
  · simp [h, immMemRecord, recordFits, qualifiedFor, hv, hfits]
  · simp [h, immMemRecord, recordFits, qualifiedFor, hv]

/-- Every record an encoding stands for can occur. -/
theorem Format.recordFits_record {f : Format} (hf : f.ok = true) {r : DecodedInstruction} (hr : f.record = some r) :
    recordFits r = true := by
  cases f with
  | rmReg d w reg form => cases hr; exact recordFits_rmRegRecord d w reg hf
  | immReg8 reg imm => cases hr; simp [recordFits, immRegRecord, regOperand, imm8Operand, widthOf]
  | immReg16 reg imm => cases hr; simp [recordFits, immRegRecord, regOperand, imm16Operand, widthOf]
  | immMem8 ign form imm => cases hr; exact recordFits_immMemRecord false (immediateFits_sext16 imm) hf
  | immMem16 ign form imm => cases hr; exact recordFits_immMemRecord true (immediateFits_word imm) hf
  | memAcc w addr => cases hr; rfl
  | accMem w addr => cases hr; rfl
  | noShape lead => cases hr

theorem Format.result_eq_resultFrom (f : Format) (start : Nat) :
    f.result start = Claims.resultFrom start (f.result 0) := by
  cases f <;> rfl

/-- A format that delivers a record has 2 to 6 bytes (R50). -/
theorem Format.length_bounds {f : Format} {r : DecodedInstruction} (h : f.record = some r) :
    2 ≤ f.length ∧ f.length ≤ 6 := by
  obtain ⟨_, -, -, hbounds⟩ | ⟨lead, rfl, -⟩ := f.result_cases 0
  · exact hbounds
  · simp [Format.record] at h

/-- The bytes of an operand side: its ModRM byte, and as many more as R50 says for it. -/
theorem RmForm.bytes_eq_cons {f : RmForm} (hf : f.ok = true) (reg : Code) :
    ∃ m tail, f.bytes reg = m :: tail ∧ f.extra = dispLen (modOf m) (rmOf m) := by
  cases f with
  | baseLow rm =>
    have h6 := (code_cases_low rm (by simpa [RmForm.ok] using hf)).1
    exact ⟨_, _, rfl, by simpa [RmForm.extra, dispLen, modOf_modRm, rmOf_modRm] using h6⟩
  | baseMid rm =>
    have h6 := (code_cases_mid rm (by simpa [RmForm.ok] using hf)).1
    exact ⟨_, _, rfl, by simpa [RmForm.extra, dispLen, modOf_modRm, rmOf_modRm] using h6⟩
  | baseBx => exact ⟨_, _, rfl, by simp [RmForm.extra, dispLen, modOf_modRm, rmOf_modRm]⟩
  | direct addr => exact ⟨_, _, rfl, by simp [RmForm.extra, dispLen, modOf_modRm, rmOf_modRm]⟩
  | disp8 rm disp => exact ⟨_, _, rfl, by simp [RmForm.extra, dispLen, modOf_modRm]⟩
  | disp16 rm disp => exact ⟨_, _, rfl, by simp [RmForm.extra, dispLen, modOf_modRm]⟩
  | register rm => exact ⟨_, _, rfl, by simp [RmForm.extra, dispLen, modOf_modRm]⟩

/-- `instr_len` of shape IMM_MEM (R50). -/
theorem instrLen_immMem {lead : Byte} {w : Bool} (m : Byte) (h : classify lead = .immMem ∧ wBit lead = w) :
    Claims.instrLen lead m = 2 + dispLen (modOf m) (rmOf m) + immLen w := by
  simp [Claims.instrLen, h]

/-- The length of a format is `instr_len` of its first two bytes (R50). -/
theorem Format.length_eq_instrLen {f : Format} (hf : f.ok = true) :
    ∃ lead tail, f.bytes = lead :: tail ∧ f.length = Claims.instrLen lead (tail.headD 0) := by
  cases f with
  | rmReg d w reg form =>
    obtain ⟨m, tail, hb, hextra⟩ := form.bytes_eq_cons hf reg
    have hc := (lead_rmReg d w).1
    exact ⟨_, _, congrArg (_ :: ·) hb, by simp [Format.length, Claims.instrLen, hc, hextra]⟩
  | immReg8 reg imm =>
    obtain ⟨hc, hw, -⟩ := lead_immReg false reg
    exact ⟨_, _, rfl, by simp only [Format.length, Claims.instrLen, hc, hw]; rfl⟩
  | immReg16 reg imm =>
    obtain ⟨hc, hw, -⟩ := lead_immReg true reg
    exact ⟨_, _, rfl, by simp only [Format.length, Claims.instrLen, hc, hw]; rfl⟩
  | immMem8 ign form imm =>
    obtain ⟨m, tail, hb, hextra⟩ := form.bytes_eq_cons hf ign
    have hlen := instrLen_immMem m (lead_immMem false)
    rw [← hextra] at hlen
    exact ⟨_, _, congrArg (_ :: · ++ [imm]) hb, (Nat.add_right_comm 2 1 form.extra).trans hlen.symm⟩
  | immMem16 ign form imm =>
    obtain ⟨m, tail, hb, hextra⟩ := form.bytes_eq_cons hf ign
    have hlen := instrLen_immMem m (lead_immMem true)
    rw [← hextra] at hlen
    exact ⟨_, _, congrArg (_ :: · ++ bytes16 imm) hb, (Nat.add_right_comm 2 2 form.extra).trans hlen.symm⟩
  | memAcc w addr => exact ⟨_, _, rfl, by simp only [Format.length, Claims.instrLen, (lead_memAcc w).1]⟩
  | accMem w addr => exact ⟨_, _, rfl, by simp only [Format.length, Claims.instrLen, (lead_accMem w).1]⟩
  | noShape lead =>
    have hc : classify lead = .noShape := by simpa [Format.ok] using hf
    exact ⟨lead, [], rfl, by simp only [Format.length, Claims.instrLen, hc]⟩

/-- The bytes ahead that the decoder found an instruction in. -/
theorem decode_eq_instr {bs rest : List Byte} {i : Instr} (h : decode bs = .instr i rest) :
    ∃ f : Format, f.ok = true ∧ bs = f.bytes ++ rest ∧ i = Instr.ofFormat f := by
  obtain ⟨-, hd⟩ | ⟨f, rest', hf, hb, hd⟩ | ⟨lead, tail, -, -, hd⟩ := decode_cases bs
  · simp [hd] at h
  · obtain ⟨rfl, rfl⟩ : Instr.ofFormat f = i ∧ rest' = rest := by simpa [hd] using h
    exact ⟨f, hf, hb, rfl⟩
  · simp [hd] at h

/-- The first 62 rows of the table are those that deliver a record. -/
theorem Instr.isSome_record_format (i : Instr) : i.format.record.isSome = decide (i.ctorIdx < 62) := by
  cases i <;> rfl

end Sys2Proof
end

section
/-! What an attempt appends to the outputs, as a function of its result and the policy (R18, R67). -/

namespace Sys2Proof.Machine

open Sys2Proof

/-- The lines an attempt with this result appends to OUT under the policy `p` (R67, R134). -/
def Result.lines (p : Policy) (r : Result) : List OutLine :=
  match r with
  | .decoded record _ _ => [.ofRecord record]
  | .endOfStream _ => []
  | .truncatedInstruction _ _ => []
  | .unrecognized _ lead =>
    match p with
    | .halt => []
    | .skipOne => []
    | .placeholder => [.ofPlaceholder lead]

variable {s : State}

/-- OUT gains exactly the lines of the result. -/
theorem State.conclude_out (s : State) (r : Result) (off : Nat) :
    (s.conclude r off).out = s.out ++ (r.lines s.policy).flatMap OutLine.text := by
  cases r with
  | decoded record start length => simp [State.conclude, State.settle, Result.lines, OutLine.text]
  | endOfStream start => simp [State.conclude, State.settle, Result.lines]
  | truncatedInstruction start lead => simp [State.conclude, State.settle, Result.lines]
  | unrecognized start lead =>
    cases hp : s.policy <;> simp [State.conclude, State.settle, Result.lines, OutLine.text, hp]

/-- RECS gains exactly the records of those lines. -/
theorem State.conclude_recs (s : State) (r : Result) (off : Nat) :
    (s.conclude r off).recs = s.recs ++ (r.lines s.policy).filterMap OutLine.record? := by
  cases r with
  | decoded record start length => simp [State.conclude, State.report, Result.lines, OutLine.record?]
  | endOfStream start => simp [State.conclude, State.report, Result.lines]
  | truncatedInstruction start lead => simp [State.conclude, State.report, Result.lines]
  | unrecognized start lead =>
    cases hp : s.policy <;> simp [State.conclude, State.report, Result.lines, OutLine.record?]

/-- Only the policy PLACEHOLDER has lines that stand for no record. -/
theorem Result.lines_areRecords {p : Policy} (hp : p ≠ .placeholder) (r : Result) :
    ∀ l ∈ r.lines p, l.record?.isSome = true := by
  cases r with
  | decoded record start length => simp [Result.lines, OutLine.record?]
  | endOfStream start => simp [Result.lines]
  | truncatedInstruction start lead => simp [Result.lines]
  | unrecognized start lead => cases p <;> simp [Result.lines] at hp ⊢

/-- The lines do not tell where the attempt started. -/
theorem Result.lines_resultFrom (p : Policy) (start : Nat) (r : Result) :
    (Claims.resultFrom start r).lines p = r.lines p := by
  cases r <;> rfl

theorem resultFrom_resultFrom (a b : Nat) (r : Result) :
    Claims.resultFrom a (Claims.resultFrom b r) = Claims.resultFrom a r := by
  cases r <;> rfl

/-- The lines of records among the lines `ls` form a subsequence of their text. -/
theorem listing_sublist_text (ls : List OutLine) :
    (listing (ls.filterMap OutLine.record?)).Sublist (ls.flatMap OutLine.text) := by
  induction ls with
  | nil => exact List.Sublist.refl _
  | cons l ls ih =>
    cases l with
    | ofRecord record => exact (List.Sublist.refl _).append ih
    | ofPlaceholder lead => exact ih.trans (List.sublist_append_right ..)

/-- Lines that all stand for records are the listing of these records. -/
theorem listing_eq_text {ls : List OutLine} (h : ∀ l ∈ ls, l.record?.isSome = true) :
    listing (ls.filterMap OutLine.record?) = ls.flatMap OutLine.text := by
  induction ls with
  | nil => rfl
  | cons l ls ih =>
    obtain ⟨hl, hls⟩ := List.forall_mem_cons.mp h
    cases l with
    | ofRecord record => exact congrArg (_ ++ ·) (ih hls)
    | ofPlaceholder lead => simp [OutLine.record?] at hl

/-- The invariant `outIsListing`, in two clauses. -/
theorem outIsListing_iff (s : State) :
    outIsListing s = true ↔ (listing s.recs).Sublist s.out ∧ (s.policy ≠ .placeholder → s.out = listing s.recs) := by
  have hsub : s.out = listing s.recs → (listing s.recs).Sublist s.out := fun h => h ▸ List.Sublist.refl _
  cases hp : s.policy <;> simp [outIsListing, hp] <;> exact hsub

/-- Every end of an attempt keeps OUT the listing of RECS. -/
theorem outIsListing_conclude (hs : outIsListing s = true) (r : Result) (off : Nat) :
    outIsListing (s.conclude r off) = true := by
  obtain ⟨hsub, heq⟩ := (outIsListing_iff s).mp hs
  rw [outIsListing_iff, s.conclude_recs, s.conclude_out, s.conclude_policy, listing_append]
  refine ⟨hsub.append (listing_sublist_text _), fun hp => ?_⟩
  rw [heq hp, listing_eq_text (r.lines_areRecords hp)]

/-- Every end of an attempt keeps OUT made of whole lines. -/
theorem outIsLines_conclude (hs : OutIsLines s) (r : Result) (off : Nat) : OutIsLines (s.conclude r off) := by
  obtain ⟨ls, hout, hrecs, hrecords⟩ := hs
  refine ⟨ls ++ r.lines s.policy, ?_, ?_, fun hp l hl => ?_⟩
  · rw [s.conclude_out, hout, List.flatMap_append]
  · rw [s.conclude_recs, hrecs, List.filterMap_append]
  · rw [s.conclude_policy] at hp
    exact (List.mem_append.mp hl).elim (hrecords hp l) (r.lines_areRecords hp l)

end Sys2Proof.Machine
end

section
/-! What one step and one row can do, result by result (10_state.md). -/

namespace Sys2Proof.Machine

open Sys2Proof

variable {s t : State}

/-- What a running step does is one function of the bytes ahead: its result up to the start offset, and how far the
cursor moves. -/
theorem step_of_stream (bs : List Byte) : ∃ r n, ∀ s : State, s.final = .running → s.stream = bs →
    step s = .next (s.conclude (Claims.resultFrom s.off r) (s.off + n)) := by
  obtain ⟨hb, -⟩ | ⟨f, rest, hf, hb, -⟩ | ⟨lead, tail, hb, hp, -⟩ := decode_cases bs
  · exact ⟨.endOfStream 0, 0, fun s hs h => step_of_nil hs (h.trans hb)⟩
  · refine ⟨f.result 0, f.length, fun s hs h => ?_⟩
    rw [← Format.result_eq_resultFrom]
    exact step_of_format hs hf (h.trans hb)
  · refine ⟨.truncatedInstruction 0 lead, bs.length, fun s hs h => ?_⟩
    rw [step_of_truncated hs (h.trans hb) hp, State.truncate, h]
    rfl

/-- The four results of a step, each with the bytes ahead that lead to it (R137). -/
theorem step_result_cases (h : step s = .next t) :
    s.final = .running ∧
    ((∃ (f : Format) (rest : List Byte) (r : DecodedInstruction), f.ok = true ∧ s.stream = f.bytes ++ rest ∧
        f.record = some r ∧ t = s.deliver r f.length) ∨
     (s.stream = [] ∧ t = s.endAttempt) ∨
     (∃ lead tail, s.stream = lead :: tail ∧ t = s.truncate lead) ∨
     (∃ lead tail, s.stream = lead :: tail ∧ classify lead = .noShape ∧ t = s.reject lead)) := by
  obtain ⟨hs, ⟨f, rest, hf, hb, ht⟩ | hend | ⟨lead, tail, hb, -, ht⟩⟩ := step_cases h
  · obtain ⟨r, hr, hres, -, -⟩ | ⟨lead, rfl, hres⟩ := f.result_cases s.off
    · exact ⟨hs, .inl ⟨f, rest, r, hf, hb, hr, by rw [ht, hres]; rfl⟩⟩
    · exact ⟨hs, .inr (.inr (.inr ⟨lead, rest, hb, by simpa [Format.ok] using hf, ht⟩))⟩
  · exact ⟨hs, .inr (.inl hend)⟩
  · exact ⟨hs, .inr (.inr (.inl ⟨lead, tail, hb, ht⟩))⟩

/-- A mov row delivers a record. -/
theorem exec_eq_deliver {i : Instr} (hi : i.ctorIdx < 62) (s : State) :
    ∃ r n, exec i s = .next (s.deliver r n) := by
  have hsome : i.format.record.isSome = true := by simpa [i.isSome_record_format] using hi
  obtain ⟨r, -, hres, -⟩ | ⟨lead, hf, -⟩ := i.format.result_cases s.off
  · exact ⟨r, i.format.length, by rw [exec_eq_conclude, hres]; rfl⟩
  · simp [hf, Format.record] at hsome

/-- An unrecognized row rejects its byte. -/
theorem exec_eq_reject {i : Instr} (hi : 62 ≤ i.ctorIdx) (s : State) : ∃ lead, exec i s = .next (s.reject lead) := by
  have hnone : i.format.record.isSome = false := by simpa [i.isSome_record_format] using hi
  obtain ⟨r, hr, -⟩ | ⟨lead, hf, -⟩ := i.format.result_cases s.off
  · simp [hr] at hnone
  · exact ⟨lead, by rw [exec_eq_conclude, hf]; rfl⟩

@[simp] theorem State.reject_src (s : State) (lead : Byte) : (s.reject lead).src = s.src := s.conclude_src ..
@[simp] theorem State.reject_policy (s : State) (lead : Byte) : (s.reject lead).policy = s.policy := s.conclude_policy ..
@[simp] theorem State.reject_off (s : State) (lead : Byte) : (s.reject lead).off = s.off + 1 := s.conclude_off ..
@[simp] theorem State.reject_res (s : State) (lead : Byte) :
    (s.reject lead).res = some (.unrecognized s.off lead) := s.conclude_res ..
@[simp] theorem State.reject_recs (s : State) (lead : Byte) : (s.reject lead).recs = s.recs := by
  simp [State.reject, State.conclude, State.report]
@[simp] theorem State.truncate_recs (s : State) (lead : Byte) : (s.truncate lead).recs = s.recs := by
  simp [State.truncate, State.conclude, State.report]
@[simp] theorem State.endAttempt_recs (s : State) : s.endAttempt.recs = s.recs := by
  simp [State.endAttempt, State.conclude, State.report]

/-- OUT after an unrecognized byte (R67). -/
theorem State.reject_out (s : State) (lead : Byte) :
    (s.reject lead).out = s.out ++ if s.policy = .placeholder then placeholderLine lead ++ [newline] else [] := by
  cases hp : s.policy <;> simp [State.reject, State.conclude_out, Result.lines, OutLine.text, hp]

/-- FINAL after an unrecognized byte (R67). -/
theorem State.reject_final (s : State) (lead : Byte) :
    (s.reject lead).final = if s.policy = .halt then (s.finish (.doneUnrecognized s.off lead)).final else s.final := by
  cases hp : s.policy with
  | halt => cases hf : s.final <;> simp [State.reject, State.conclude, State.settle, State.finish, hp, hf]
  | skipOne => simp [State.reject, State.conclude, State.settle, hp]
  | placeholder => simp [State.reject, State.conclude, State.settle, hp]

/-- A placeholder line is one line (R8). -/
theorem newline_notMem_placeholderLine (lead : Byte) : newline ∉ placeholderLine lead := by
  simp [placeholderLine]

end Sys2Proof.Machine
end

section
/-! The cursor within the stream (R13), the state at launch (R22), and signed readings (R88). -/

namespace Sys2Proof.Machine

open Sys2Proof

variable {s : State}

/-- OFF is within the well-formed SRC (R13). -/
theorem cursorInBounds_iff (s : State) : cursorInBounds s = true ↔ s.src.wf = true ∧ s.off ≤ s.src.len := by
  simp [cursorInBounds]

/-- A byte read keeps the cursor within the stream. -/
theorem cursorInBounds_nextByte (h : cursorInBounds s = true) :
    cursorInBounds (nextByte s).2 = true ∧ s.off ≤ (nextByte s).2.off := by
  obtain ⟨hw, hle⟩ := (cursorInBounds_iff s).mp h
  cases hr : s.src.read s.off with
  | none => simp [nextByte, hr, h]
  | some b =>
    have hlt : s.off < s.src.len := by
      rw [← Nat.not_le, ← Memory.read_eq_none_iff _ hw, hr]; simp
    simp [nextByte, hr, cursorInBounds_iff, hw]; omega

/-- A delivered format has the length that the byte at the cursor and the byte after it say (R50). -/
theorem length_eq_instrLen_read (hw : s.src.wf = true) {f : Format} {rest : List Byte}
    (hb : s.stream = f.bytes ++ rest) (hf : f.ok = true) {r : DecodedInstruction} (hr : f.record = some r) :
    f.length = Claims.instrLen ((s.src.read s.off).getD 0) ((s.src.read (s.off + 1)).getD 0) := by
  obtain ⟨lead, tail, hbytes, hlen⟩ := Format.length_eq_instrLen hf
  obtain ⟨m, tail, rfl⟩ : ∃ m tail', tail = m :: tail' := by
    have htwo := (Format.length_bounds hr).1
    rw [← f.length_bytes, hbytes] at htwo
    exact List.exists_cons_of_length_pos (Nat.le_of_succ_le_succ htwo)
  rw [State.read_eq_head hw, State.read_next hw, hb, hbytes, hlen]
  rfl

/-- The cursor stands at LEN behind everything ahead of it. -/
theorem State.off_add_length_stream (h : cursorInBounds s = true) : s.off + s.stream.length = s.src.len := by
  obtain ⟨hw, hle⟩ := (cursorInBounds_iff s).mp h
  rw [State.length_stream hw]; omega

@[simp] theorem State.launch_src (bytes : List Byte) (policy : Policy) :
    (State.launch bytes policy).src = Memory.ofBytes bytes := rfl

@[simp] theorem State.launch_off (bytes : List Byte) (policy : Policy) : (State.launch bytes policy).off = 0 := rfl

theorem State.stream_launch (bytes : List Byte) (policy : Policy) : (State.launch bytes policy).stream = bytes := by
  simp [State.stream, Memory.bytesFrom_eq _ (Memory.wf_ofBytes bytes)]

theorem cursorInBounds_launch (bytes : List Byte) (policy : Policy) :
    cursorInBounds (State.launch bytes policy) = true := by
  simp [cursorInBounds_iff]

/-- The signed reading of a pattern below 32768 is the pattern (R88). -/
theorem signed16_of_lt {u : U16} (h : u.toNat < 32768) : signed16 u = u.toNat := by
  simp only [signed16, BitVec.toInt]; omega

/-- The signed reading of a pattern from 32768 on is negative (R88). -/
theorem signed16_of_ge {u : U16} (h : 32768 ≤ u.toNat) : signed16 u = -((65536 - u.toNat : Nat) : Int) := by
  have hu := u.isLt
  simp only [signed16, BitVec.toInt]; omega

end Sys2Proof.Machine
end

section
/-! The obligations of 10_state.md, settled. -/

namespace Sys2Proof.Machine

open Sys2Proof

/-- Settles O38, by the four results of a step: none moves the cursor past what stands before it. -/
theorem cursorStaysInBounds : Obligations.CursorStaysInBounds := by
  refine ⟨cursorInBounds_launch, fun s hs => cursorInBounds_nextByte hs, fun s t hs h => ?_⟩
  have hw := ((cursorInBounds_iff s).mp hs).1
  have hend := State.off_add_length_stream hs
  rw [cursorInBounds_iff]
  obtain ⟨-, ⟨f, rest, r, -, hb, -, rfl⟩ | ⟨hb, rfl⟩ | ⟨lead, tail, hb, rfl⟩ | ⟨lead, tail, hb, -, rfl⟩⟩ :=
    step_result_cases h
  · rw [hb, List.length_append, f.length_bytes] at hend
    simp [State.deliver, hw]; omega
  · rw [hb] at hend
    simp [State.endAttempt, hw, ← hend]
  · simp [State.truncate, hw, hend]; omega
  · rw [hb, List.length_cons] at hend
    simp [hw]; omega

/-- Settles O40: a step ends in `conclude`, which appends the lines of the result to OUT and their records to RECS. -/
theorem outStaysTheListingOfRecs : Obligations.OutStaysTheListingOfRecs := by
  refine ⟨fun s t hs h => ?_, fun s t hs h => ?_⟩
  · obtain ⟨r, off, rfl⟩ := step_eq_conclude h
    exact outIsListing_conclude hs r off
  · obtain ⟨r, off, rfl⟩ := step_eq_conclude h
    exact outIsLines_conclude hs r off

/-- Settles O41: only a delivered instruction appends a record, and it is that of an encoding. -/
theorem recordsStayWithinTheShapes : Obligations.RecordsStayWithinTheShapes := by
  intro s t hs h
  obtain ⟨-, ⟨f, rest, r, hf, -, hr, rfl⟩ | ⟨-, rfl⟩ | ⟨lead, tail, -, rfl⟩ | ⟨lead, tail, -, -, rfl⟩⟩ :=
    step_result_cases h
  · have hr : recordFits r = true := Format.recordFits_record hf hr
    have hall : s.recs.all recordFits = true := hs
    simp [recordsFit, State.deliver_eq, hall, hr]
  · simpa [recordsFit] using hs
  · simpa [recordsFit] using hs
  · simpa [recordsFit] using hs

/-- Settles O42, by the four results of a step. -/
theorem statusStaysConsistent : Obligations.StatusStaysConsistent := by
  intro s t hs h
  have hend := State.off_add_length_stream hs
  obtain ⟨hrun, ⟨f, rest, r, -, -, hr, rfl⟩ | ⟨hb, rfl⟩ | ⟨lead, tail, hb, rfl⟩ | ⟨lead, tail, -, hc, rfl⟩⟩ :=
    step_result_cases h
  · simp [statusAgrees, State.deliver_eq, hrun, Format.length_bounds hr]
  · rw [hb] at hend
    simpa [statusAgrees, State.endAttempt_eq s hrun] using hend
  · have hpos : 0 < s.stream.length := by simp [hb]
    simp [statusAgrees, State.truncate_eq s lead hrun, hend]; omega
  · have hfinal := s.reject_final lead
    rw [State.finish_of_running s _ hrun, hrun] at hfinal
    simp [statusAgrees, hfinal, hc]

/-- Settles O47: a running step is one function of the bytes ahead, and its lines depend on result and policy only. -/
theorem attemptsDependOnBytesAheadOnly : Obligations.AttemptsDependOnBytesAheadOnly := by
  intro s u hs hu hstream hpolicy
  obtain ⟨r, n, hstep⟩ := step_of_stream s.stream
  refine ⟨_, _, (r.lines s.policy).flatMap OutLine.text, (r.lines s.policy).filterMap OutLine.record?, n,
    hstep s hs rfl, hstep u hu hstream.symm, ?_, ?_, ?_, ?_, State.conclude_off .., State.conclude_off .., ?_⟩
  · rw [State.conclude_out, Result.lines_resultFrom]
  · rw [State.conclude_out, Result.lines_resultFrom, hpolicy]
  · rw [State.conclude_recs, Result.lines_resultFrom]
  · rw [State.conclude_recs, Result.lines_resultFrom, hpolicy]
  · simp [resultFrom_resultFrom]

/-- Settles O1: SRC is the byte sequence in canonical form, and the rest is written out in `launch`. -/
theorem launchLeavesTheResetState : Obligations.LaunchLeavesTheResetState := by
  refine ⟨fun bytes policy => ⟨rfl, rfl, rfl, rfl, Memory.len_ofBytes bytes, fun a => ?_,
    State.stream_launch bytes policy⟩, rfl, rfl, rfl, rfl⟩
  simp [Memory.read_eq]

/-- Settles O12: the bytes in front of the rest are those of one format, which decode alike whatever follows. -/
theorem decodingDependsOnOwnBytesOnly : Obligations.DecodingDependsOnOwnBytesOnly := by
  intro bytes i rest other h
  obtain ⟨f, hf, rfl, rfl⟩ := decode_eq_instr h
  have htake : (f.bytes ++ rest).take ((f.bytes ++ rest).length - rest.length) = f.bytes := by simp
  rw [htake, decode_of_bytes f hf]

/-- Settles O27: a mov row delivers its record. -/
theorem movFrame : Obligations.MovFrame := by
  intro i s t hi h
  obtain ⟨r, n, hexec⟩ := exec_eq_deliver hi s
  obtain rfl : s.deliver r n = t := by simpa [hexec] using h
  exact ⟨fun _ => rfl, rfl, rfl, rfl, r, n, rfl, rfl, List.append_assoc ..⟩

/-- Settles O28: an unrecognized row rejects its byte. -/
theorem unrecognizedFrame : Obligations.UnrecognizedFrame := by
  intro i s t hi h
  obtain ⟨lead, hexec⟩ := exec_eq_reject hi s
  obtain rfl : s.reject lead = t := by simpa [hexec] using h
  refine ⟨fun a => by rw [s.reject_src], s.reject_src lead, s.reject_policy lead, s.reject_recs lead, fun hp => ?_,
    fun hp => ?_, fun hp => ?_⟩
  · rw [State.reject_out, if_neg hp, List.append_nil]
  · exact ⟨placeholderLine lead, newline_notMem_placeholderLine lead, by rw [State.reject_out, if_pos hp]⟩
  · rw [State.reject_final]
    obtain hp | hended := hp
    · rw [if_neg hp]
    · rw [State.finish_of_ended s _ hended, ite_self]

/-- Settles O37, by the four results of a step. -/
theorem cursorAfterEveryAttempt : Obligations.CursorAfterEveryAttempt := by
  intro s t hs h
  have hw := ((cursorInBounds_iff s).mp hs).1
  have hend := State.off_add_length_stream hs
  have hhead := State.read_eq_head hw
  obtain ⟨hrun, ⟨f, rest, r, hf, hb, hr, rfl⟩ | ⟨hb, rfl⟩ | ⟨lead, tail, hb, rfl⟩ | ⟨lead, tail, hb, -, rfl⟩⟩ :=
    step_result_cases h
  · exact ⟨rfl, rfl, length_eq_instrLen_read hw hb hf hr⟩
  · rw [hb] at hend
    simpa [State.endAttempt] using hend
  · simp [State.truncate, hhead, hb, ← hend]
  · simp [hhead, hb]

/-- Settles O5, by the sixteen entries of the two tables. -/
theorem registerNamesNeverAlias : Obligations.RegisterNamesNeverAlias := by
  have hbytes : ∀ i j : Code, fmtReg i .byte = fmtReg j .byte → i = j := by decide
  have hwords : ∀ i j : Code, fmtReg i .word = fmtReg j .word → i = j := by decide
  have hapart : ∀ i j : Code, fmtReg i .byte ≠ fmtReg j .word := by decide
  refine ⟨by decide, by decide, fun i j w v h => ?_, rfl, rfl, rfl, rfl, rfl, rfl⟩
  cases w <;> cases v
  · exact ⟨hbytes i j h, rfl⟩
  · exact absurd h (hapart i j)
  · exact absurd h.symm (hapart j i)
  · exact ⟨hwords i j h, rfl⟩

/-- Settles O7, by the sign of the displacement. -/
theorem memoryOperandsRenderSignAndMagnitude : Obligations.MemoryOperandsRenderSignAndMagnitude := by
  refine ⟨by decide, fun _ => rfl, fun base d hd => ?_, fun base d hd => ?_, fun _ => rfl⟩
  · simp [fmtMem, signed16_of_lt hd]
  · have hlt := d.isLt
    have hneg : ¬ 0 ≤ -((65536 - d.toNat : Nat) : Int) := by omega
    simp only [fmtMem, signed16_of_ge hd, if_neg hneg, neg_neg, Int.toNat_natCast]

/-- Settles O39: State.reset is a launch, and nothing is written yet after one. -/
theorem invariantsHoldAtLaunch : Obligations.InvariantsHoldAtLaunch := by
  have hlaunch : ∀ bytes policy, outIsListing (State.launch bytes policy) = true ∧
      recordsFit (State.launch bytes policy) = true ∧ statusAgrees (State.launch bytes policy) = true ∧
      outIsText (State.launch bytes policy) = true ∧ cursorInBounds (State.launch bytes policy) = true ∧
      OutIsLines (State.launch bytes policy) := fun bytes policy =>
    ⟨(outIsListing_iff _).mpr ⟨List.Sublist.refl _, fun _ => rfl⟩, rfl, rfl, (outIsText_iff _).mpr ⟨rfl, .inr rfl⟩,
      cursorInBounds_launch bytes policy, [], rfl, rfl, by simp⟩
  exact ⟨hlaunch [] .halt, hlaunch⟩

end Sys2Proof.Machine
end

section
/-! The word readers as arithmetic (R25, R81, R84, R88), and the obligation of 20_memory.md, settled. -/

namespace Sys2Proof.Machine

open Sys2Proof

/-- The byte read first is the low-order one (R25). -/
theorem toNat_le16 (lo hi : Byte) : (le16 lo hi).toNat = lo.toNat + 256 * hi.toNat := by
  rw [le16, BitVec.toNat_append, ← Nat.shiftLeft_add_eq_or_of_lt lo.isLt, Nat.shiftLeft_eq]
  omega

/-- Sign extension fills the high byte with the sign bit, which is set from 128 on (R81, R84). -/
theorem toNat_sext16 (v : Byte) : (sext16 v).toNat = if v.toNat ≤ 127 then v.toNat else v.toNat + 65280 := by
  have hmsb : v.msb = decide (128 ≤ v.toNat) := v.msb_eq_decide
  have hlow : (v.setWidth 16).toNat = v.toNat := BitVec.toNat_setWidth_of_le (by decide)
  rw [sext16, BitVec.toNat_signExtend, hlow, hmsb]
  by_cases hle : v.toNat ≤ 127
  · have hclear : ¬ 128 ≤ v.toNat := by omega
    simp [hle, hclear]
  · have hset : 128 ≤ v.toNat := by omega
    simp [hle, hset]

/-- Sign extension keeps the signed reading of the byte (R88). -/
theorem signed16_sext16 (v : Byte) : signed16 (sext16 v) = v.toInt :=
  BitVec.toInt_signExtend_of_le (by decide)

/-- Settles O4: the signed reading splits at 32768, the sign of a byte at 128. -/
theorem readerArithmeticLaws : Obligations.ReaderArithmeticLaws := by
  refine ⟨toNat_le16, toNat_sext16, fun u => ?_, fun v => ?_, rfl, rfl⟩
  · split
    · exact signed16_of_lt (by omega)
    · rw [signed16_of_ge (by omega)]; omega
  · rw [signed16_sext16, BitVec.toInt]
    split <;> split <;> omega

end Sys2Proof.Machine
end

section
/-! What the decoder reads behind a leading byte, shape by shape, and framing (R66): it runs out of bytes only where
fewer are there than R50 counts. -/

namespace Sys2Proof

open Sys2Proof.Machine

theorem take8_cons (b : Byte) (bs : List Byte) : take8 (b :: bs) = some (b, bs) := rfl

/-- A recognized leading byte alone is no instruction. -/
theorem parse_nil {lead : Byte} (hc : classify lead ≠ .noShape) : parse lead [] = none := by
  cases h : classify lead with
  | noShape => exact absurd h hc
  | immReg => cases hw : wBitImmReg lead <;> simp [parse, h, hw, take8, take16]
  | rmReg => simp [parse, h, take8]
  | immMem => simp [parse, h, take8]
  | memAcc => simp [parse, h, take16]
  | accMem => simp [parse, h, take16]

theorem parse_rmReg {lead : Byte} (hc : classify lead = .rmReg) (m : Byte) (bs : List Byte) :
    parse lead (m :: bs) = (takeForm (modOf m) (rmOf m) bs).map fun p =>
      (.rmReg (dBit lead) (wBit lead) (regOf m) p.1, p.2) := by
  simp [parse, hc, take8_cons]

theorem parse_immReg {lead : Byte} (hc : classify lead = .immReg) (bs : List Byte) :
    parse lead bs = if wBitImmReg lead then (take16 bs).map fun p => (.immReg16 (leadReg lead) p.1, p.2)
      else (take8 bs).map fun p => (.immReg8 (leadReg lead) p.1, p.2) := by
  simp [parse, hc]

theorem parse_immMem {lead : Byte} (hc : classify lead = .immMem) (m : Byte) (bs : List Byte) :
    parse lead (m :: bs) = (takeForm (modOf m) (rmOf m) bs).bind fun p =>
      if wBit lead then (take16 p.2).map fun v => (.immMem16 (regOf m) p.1 v.1, v.2)
      else (take8 p.2).map fun v => (.immMem8 (regOf m) p.1 v.1, v.2) := by
  simp [parse, hc, take8_cons]

/-- A0 and A1 load the accumulator, A2 and A3 store it; the address has two bytes whatever `w` is (R49). -/
theorem parse_acc {lead : Byte} (hlo : 0xA0 ≤ lead.toNat) (hhi : lead.toNat ≤ 0xA3) (bs : List Byte) :
    parse lead bs = (take16 bs).map fun a =>
      (if lead.toNat < 0xA2 then .memAcc (wBit lead) a.1 else .accMem (wBit lead) a.1, a.2) := by
  have hclassify : ∀ lead : Byte, 0xA0 ≤ lead.toNat → lead.toNat ≤ 0xA3 →
      classify lead = if lead.toNat < 0xA2 then .memAcc else .accMem := by decide
  have hc := hclassify lead hlo hhi
  split at hc
  case isTrue hlt => simp [parse, hc, hlt]
  case isFalse hge => simp [parse, hc, hge]

theorem mod_cases : ∀ mod : BitVec 2, mod = 0 ∨ mod = 1 ∨ mod = 2 ∨ mod = 3 := by decide

@[simp] theorem take8_eq_none_iff (bs : List Byte) : take8 bs = none ↔ bs = [] := by
  cases bs <;> simp [take8]

/-- A word wants two bytes. -/
@[simp] theorem take16_eq_none_iff (bs : List Byte) : take16 bs = none ↔ bs.length < 2 := by
  match bs with
  | [] => simp [take16]
  | [_] => simp [take16]
  | _ :: _ :: _ => simp [take16]

/-- Under `mod = 00` a base without displacement takes no byte (R71). -/
theorem takeForm_base {rm : Code} (h6 : rm ≠ 6) (bs : List Byte) :
    ∃ f : RmForm, takeForm 0 rm bs = some (f, bs) ∧ f.extra = 0 ∧ ∀ w, f.operand w = baseOperand rm := by
  have htake : takeForm 0 rm bs = if rm = 7 then some (.baseBx, bs)
      else if rm ≤ 3 then some (.baseLow rm, bs) else some (.baseMid rm, bs) := if_neg h6
  rw [htake]
  by_cases h7 : rm = 7
  · subst h7; exact ⟨.baseBx, rfl, rfl, fun _ => rfl⟩
  · rw [if_neg h7]
    by_cases hlow : rm ≤ 3
    · exact ⟨.baseLow rm, if_pos hlow, rfl, fun _ => rfl⟩
    · exact ⟨.baseMid rm, if_neg hlow, rfl, fun _ => rfl⟩

/-- An operand side is missing exactly when fewer bytes are there than `disp_len` says (R50). -/
theorem takeForm_eq_none_iff (mod : BitVec 2) (rm : Code) (bs : List Byte) :
    takeForm mod rm bs = none ↔ bs.length < dispLen mod rm := by
  obtain rfl | rfl | rfl | rfl := mod_cases mod
  · by_cases h6 : rm = 6
    · subst h6; simp [takeForm, dispLen]
    · obtain ⟨f, hf, -⟩ := takeForm_base h6 bs
      rw [hf, dispLen, if_pos rfl, if_neg h6]; simp
  · simp [takeForm, dispLen]
  · simp [takeForm, dispLen]
  · simp [takeForm, dispLen]

/-- What `takeForm` took are the bytes behind the ModRM byte, as many as `disp_len` says (R50). -/
theorem takeForm_rest {m : Byte} {bs rest : List Byte} {f : RmForm}
    (h : takeForm (modOf m) (rmOf m) bs = some (f, rest)) :
    rest = bs.drop f.extra ∧ f.extra = dispLen (modOf m) (rmOf m) := by
  obtain ⟨hok, hb⟩ := takeForm_eq_some h
  obtain ⟨m', tail, hbytes, hextra⟩ := f.bytes_eq_cons hok (regOf m)
  have hlen : (f.bytes (regOf m)).length = f.extra + 1 := by cases f <;> rfl
  obtain ⟨rfl, rfl⟩ : m = m' ∧ bs = tail ++ rest := by simpa [hbytes] using hb
  have htail : tail.length = f.extra := by simpa [hbytes] using hlen
  exact ⟨(List.drop_left' htail).symm, hextra⟩

/-- Where the decoder runs out of bytes, fewer are there than `instr_len` says (R66). -/
theorem length_lt_of_parse_eq_none {lead : Byte} {bs : List Byte} (h : parse lead bs = none) :
    1 + bs.length < Claims.instrLen lead (bs.headD 0) := by
  unfold Claims.instrLen
  cases hc : classify lead with
  | rmReg =>
    cases bs with
    | nil => simp; omega
    | cons m bs =>
      have hlt : bs.length < dispLen (modOf m) (rmOf m) := by
        simpa [parse_rmReg hc, takeForm_eq_none_iff] using h
      simp; omega
  | immReg =>
    have hlt : bs.length < immLen (wBitImmReg lead) := by
      cases hw : wBitImmReg lead <;> simpa [parse_immReg hc, hw, immLen] using h
    simpa using hlt
  | immMem =>
    cases bs with
    | nil => simp; omega
    | cons m bs =>
      cases hf : takeForm (modOf m) (rmOf m) bs with
      | none =>
        have hlt := (takeForm_eq_none_iff ..).mp hf
        simp; omega
      | some p =>
        obtain ⟨f, rest⟩ := p
        obtain ⟨hrest, hextra⟩ := takeForm_rest hf
        have hlt : rest.length < immLen (wBit lead) := by
          cases hw : wBit lead <;> simpa [parse_immMem hc, hf, hw, immLen] using h
        rw [hrest, List.length_drop] at hlt
        simp; omega
  | memAcc =>
    have hlt : bs.length < 2 := by simpa [parse, hc] using h
    simp; omega
  | accMem =>
    have hlt : bs.length < 2 := by simpa [parse, hc] using h
    simp; omega
  | noShape => simp [parse, hc] at h

/-- No instruction is longer than six bytes (R50). -/
theorem instrLen_le (lead m : Byte) : Claims.instrLen lead m ≤ 6 := by
  have hdisp : ∀ mod rm, dispLen mod rm ≤ 2 := by decide
  have himm : ∀ w, immLen w ≤ 2 := by decide
  have hd := hdisp (modOf m) (rmOf m)
  have hi := himm (wBit lead)
  have hi' := himm (wBitImmReg lead)
  unfold Claims.instrLen
  split <;> omega

/-- A leading byte with five bytes behind it always starts an instruction. -/
theorem exists_format_of_length {lead : Byte} {bs : List Byte} (h : 5 ≤ bs.length) :
    ∃ (f : Format) (rest : List Byte), f.ok = true ∧ lead :: bs = f.bytes ++ rest := by
  cases hp : parse lead bs with
  | some p => exact ⟨p.1, p.2, parse_eq_some hp⟩
  | none =>
    have hlt := length_lt_of_parse_eq_none hp
    have hle := instrLen_le lead (bs.headD 0)
    omega

end Sys2Proof
end

section
/-! The opcode table (30_encoding.md section 8): each format has its row, and no two rows match the same bytes. -/

namespace Sys2Proof

open Sys2Proof.Machine

/-- The row matches the two bytes, as masks and values are read in 30_encoding.md section 8. -/
def Row.Matches (row : Row) (b0 b1 : Byte) : Prop := (b0 ++ b1) &&& row.mask = row.value

/-- The row that fixes the leading byte by `mask0` and `value0` and the byte after it by `mask1` and `value1`. -/
def Row.ofBytes (mask0 value0 mask1 value1 : Byte) (length : Nat) : Row := ⟨mask0 ++ mask1, value0 ++ value1, length⟩

theorem Row.matches_ofBytes {b0 b1 mask0 value0 mask1 value1 : Byte} (n : Nat) (h0 : b0 &&& mask0 = value0)
    (h1 : b1 &&& mask1 = value1) : (Row.ofBytes mask0 value0 mask1 value1 n).Matches b0 b1 := by
  rw [Row.Matches, Row.ofBytes, BitVec.and_append, h0, h1]

/-- The mask over the ModRM byte of an operand side. -/
def RmForm.mask (f : RmForm) : Byte :=
  match f with
  | .baseLow _ => 0xC4
  | .baseMid _ => 0xC6
  | .baseBx => 0xC7
  | .direct _ => 0xC7
  | .disp8 _ _ => 0xC0
  | .disp16 _ _ => 0xC0
  | .register _ => 0xC0

/-- The value under that mask. -/
def RmForm.value (f : RmForm) : Byte :=
  match f with
  | .baseLow _ => 0x00
  | .baseMid _ => 0x04
  | .baseBx => 0x07
  | .direct _ => 0x06
  | .disp8 _ _ => 0x40
  | .disp16 _ _ => 0x80
  | .register _ => 0xC0

theorem modRm_and (mod mod' : BitVec 2) (reg reg' rm rm' : Code) :
    modRm mod reg rm &&& modRm mod' reg' rm' = modRm (mod &&& mod') (reg &&& reg') (rm &&& rm') :=
  BitVec.and_append.trans (congrArg (· ++ (rm &&& rm')) BitVec.and_append)

/-- The ModRM byte of an operand side meets its mask, whatever the `reg` field. -/
theorem RmForm.bytes_and_mask {f : RmForm} (hf : f.ok = true) (reg : Code) :
    ∃ m tail, f.bytes reg = m :: tail ∧ m &&& f.mask = f.value := by
  have hzero : ∀ c : Code, c &&& 0 = 0 := by decide
  have hmask : ∀ (mod : BitVec 2) (rm rmMask : Code),
      modRm mod reg rm &&& modRm 3 0 rmMask = modRm mod 0 (rm &&& rmMask) := fun mod rm rmMask => by
    have hmod : ∀ mod : BitVec 2, mod &&& 3 = mod := by decide
    rw [modRm_and, hmod, hzero]
  cases f with
  | baseLow rm =>
    have hlow : ∀ rm : Code, rm ≤ 3 → rm &&& 4 = 0 := by decide
    exact ⟨_, _, rfl, (hmask 0 rm 4).trans (by rw [hlow rm (by simpa [RmForm.ok] using hf)]; rfl)⟩
  | baseMid rm =>
    have hmid : ∀ rm : Code, rm = 4 ∨ rm = 5 → rm &&& 6 = 4 := by decide
    exact ⟨_, _, rfl, (hmask 0 rm 6).trans (by rw [hmid rm (by simpa [RmForm.ok] using hf)]; rfl)⟩
  | baseBx => exact ⟨_, _, rfl, hmask 0 7 7⟩
  | direct addr => exact ⟨_, _, rfl, hmask 0 6 7⟩
  | disp8 rm disp => exact ⟨_, _, rfl, (hmask 1 rm 0).trans (by rw [hzero]; rfl)⟩
  | disp16 rm disp => exact ⟨_, _, rfl, (hmask 2 rm 0).trans (by rw [hzero]; rfl)⟩
  | register rm => exact ⟨_, _, rfl, (hmask 3 rm 0).trans (by rw [hzero]; rfl)⟩

/-- The row that fixes the whole leading byte and the ModRM bits of an operand side. -/
def Row.ofForm (lead : Byte) (form : RmForm) (length : Nat) : Row :=
  .ofBytes 0xFF lead form.mask form.value length

/-- The row that fixes the whole leading byte and no bit after it. -/
def Row.ofLead (lead : Byte) (length : Nat) : Row := .ofBytes 0xFF lead 0 0 length

theorem Row.matches_ofForm {lead b0 b1 : Byte} {form : RmForm} {reg : Code} {rest tail : List Byte} (n : Nat)
    (hform : form.ok = true) (hb : lead :: (form.bytes reg ++ rest) = b0 :: b1 :: tail) :
    (Row.ofForm lead form n).Matches b0 b1 := by
  obtain ⟨m, tail', hm, hmask⟩ := form.bytes_and_mask hform reg
  obtain ⟨rfl, rfl, -⟩ : lead = b0 ∧ m = b1 ∧ tail' ++ rest = tail := by simpa [hm] using hb
  exact Row.matches_ofBytes n BitVec.and_allOnes hmask

theorem Row.matches_ofLead {lead b0 b1 : Byte} {rest tail : List Byte} (n : Nat)
    (hb : lead :: rest = b0 :: b1 :: tail) : (Row.ofLead lead n).Matches b0 b1 := by
  obtain rfl := (List.cons.inj hb).1
  exact Row.matches_ofBytes n BitVec.and_allOnes BitVec.and_zero

/-- The row fixes one of the aligned blocks of leading bytes that `lead` stands in, and no bit after it (R55). -/
def Row.takesLead (lead : Byte) (row : Row) : Bool :=
  decide (lead &&& row.mask.extractLsb' 8 8 = row.value.extractLsb' 8 8 ∧
    row.mask.extractLsb' 0 8 = 0 ∧ row.value.extractLsb' 0 8 = 0 ∧ row.length = 1)

theorem Row.matches_of_takesLead {lead : Byte} {row : Row} (h : row.takesLead lead = true) (b1 : Byte) :
    row.Matches lead b1 ∧ row.length = 1 := by
  obtain ⟨hlead, hmask, hvalue, hlength⟩ := of_decide_eq_true h
  refine ⟨(append_and_eq_iff lead b1 row.mask row.value).mpr ⟨hlead, ?_⟩, hlength⟩
  rw [hmask, hvalue]
  exact BitVec.and_zero

theorem takesLead_of_noShape : ∀ lead : Byte, classify lead = .noShape →
    (tableRows[(ofNoShape lead).ctorIdx]?).any (Row.takesLead lead) = true := by decide

/-- The row of a format in the opcode table matches its bytes and has its length. Before a row with an operand side is
compared with the table, its mask, value and length are rewritten to numerals: a word with a variable in it does not
compute. -/
theorem exists_row_of_format {f : Format} (hf : f.ok = true) {rest tail : List Byte} {b0 b1 : Byte}
    (hb : f.bytes ++ rest = b0 :: b1 :: tail) :
    ∃ row, tableRows[(Instr.ofFormat f).ctorIdx]? = some row ∧ row.Matches b0 b1 ∧ row.length = f.length := by
  cases f with
  | rmReg d w reg form =>
    refine ⟨.ofForm (0b100010#6 ++ BitVec.ofBool d ++ BitVec.ofBool w) form (2 + form.extra), ?_,
      Row.matches_ofForm _ hf hb, rfl⟩
    cases d <;> cases w <;> cases form <;> rw [Row.ofForm, RmForm.mask, RmForm.value, RmForm.extra] <;> rfl
  | immReg8 reg imm =>
    refine ⟨.ofLead (0b1011#4 ++ BitVec.ofBool false ++ reg) 2, ?_, Row.matches_ofLead _ hb, rfl⟩
    obtain rfl | rfl | rfl | rfl | rfl | rfl | rfl | rfl := code_eq reg <;> rfl
  | immReg16 reg imm =>
    refine ⟨.ofLead (0b1011#4 ++ BitVec.ofBool true ++ reg) 3, ?_, Row.matches_ofLead _ hb, rfl⟩
    obtain rfl | rfl | rfl | rfl | rfl | rfl | rfl | rfl := code_eq reg <;> rfl
  | immMem8 ign form imm =>
    refine ⟨.ofForm (0b1100011#7 ++ BitVec.ofBool false) form (3 + form.extra), ?_,
      Row.matches_ofForm _ hf (by simpa [Format.bytes] using hb), rfl⟩
    cases form <;> rw [Row.ofForm, RmForm.mask, RmForm.value, RmForm.extra] <;> rfl
  | immMem16 ign form imm =>
    refine ⟨.ofForm (0b1100011#7 ++ BitVec.ofBool true) form (4 + form.extra), ?_,
      Row.matches_ofForm _ hf (by simpa [Format.bytes] using hb), rfl⟩
    cases form <;> rw [Row.ofForm, RmForm.mask, RmForm.value, RmForm.extra] <;> rfl
  | memAcc w addr =>
    refine ⟨.ofLead (0b1010000#7 ++ BitVec.ofBool w) 3, ?_, Row.matches_ofLead _ hb, rfl⟩
    cases w <;> rfl
  | accMem w addr =>
    refine ⟨.ofLead (0b1010001#7 ++ BitVec.ofBool w) 3, ?_, Row.matches_ofLead _ hb, rfl⟩
    cases w <;> rfl
  | noShape lead =>
    obtain rfl := (List.cons.inj hb).1
    have hc : classify lead = .noShape := by simpa [Format.ok] using hf
    obtain ⟨row, hrow, htakes⟩ := (Option.any_eq_true ..).mp (takesLead_of_noShape lead hc)
    exact ⟨row, hrow, Row.matches_of_takesLead htakes b1⟩

/-- Any two rows of the table differ in a bit that both fix. -/
theorem tableRows_pairwise_disjoint :
    tableRows.Pairwise fun r r' => r.value &&& r'.mask ≠ r'.value &&& r.mask := by decide

/-- The same two bytes are not matched by two rows of the table. -/
theorem eq_of_matches {b0 b1 : Byte} {j k : Nat} {r r' : Row} (hj : tableRows[j]? = some r)
    (hk : tableRows[k]? = some r') (h : r.Matches b0 b1) (h' : r'.Matches b0 b1) : j = k := by
  have hagree : r.value &&& r'.mask = r'.value &&& r.mask := by
    rw [← show _ = r.value from h, ← show _ = r'.value from h', BitVec.and_assoc, BitVec.and_assoc,
      BitVec.and_comm r.mask]
  obtain ⟨hjlt, rfl⟩ := List.getElem?_eq_some_iff.mp hj
  obtain ⟨hklt, rfl⟩ := List.getElem?_eq_some_iff.mp hk
  have hdisjoint := List.pairwise_iff_getElem.mp tableRows_pairwise_disjoint
  obtain hlt | heq | hgt := Nat.lt_trichotomy j k
  · exact absurd hagree (hdisjoint j k hjlt hklt hlt)
  · exact heq
  · exact absurd hagree.symm (hdisjoint k j hklt hjlt hgt)

end Sys2Proof
end

section
/-! The fields of the leading byte and of the ModRM byte, and the operands read after them, by arithmetic on the bytes
(R38 to R42, R75, R84). -/

namespace Sys2Proof

open Sys2Proof.Machine

theorem toNat_modOf (m : Byte) : (modOf m).toNat = m.toNat / 64 := by
  have hm := m.isLt
  simp only [modOf, BitVec.extractLsb'_toNat, Nat.shiftRight_eq_div_pow]
  omega

theorem toNat_regOf (m : Byte) : (regOf m).toNat = m.toNat / 8 % 8 := by
  simp only [regOf, BitVec.extractLsb'_toNat, Nat.shiftRight_eq_div_pow]

theorem toNat_rmOf (m : Byte) : (rmOf m).toNat = m.toNat % 8 := by
  simp only [rmOf, BitVec.extractLsb'_toNat, Nat.shiftRight_eq_div_pow]
  omega

theorem toNat_leadReg (lead : Byte) : (leadReg lead).toNat = lead.toNat % 8 := toNat_rmOf lead

/-- Bit `k` of a leading byte is 1 when the quotient by its weight is odd. -/
theorem getLsbD_eq_decide (lead : Byte) (k : Nat) : lead.getLsbD k = decide (lead.toNat / 2 ^ k % 2 = 1) :=
  Nat.testBit_eq_decide_div_mod_eq

/-- The width that a bit of the leading byte selects (R40). -/
theorem widthOfBit_eq (lead : Byte) (k : Nat) : Claims.widthOfBit lead k = widthOf (lead.getLsbD k) := by
  rw [getLsbD_eq_decide, Claims.widthOfBit, widthOf]
  obtain h | h := Nat.mod_two_eq_zero_or_one (lead.toNat / 2 ^ k) <;> simp [h]

theorem ofNat_le16 (lo hi : Byte) : BitVec.ofNat 16 (lo.toNat + 256 * hi.toNat) = le16 lo hi := by
  rw [← toNat_le16, BitVec.ofNat_toNat, BitVec.setWidth_eq]

theorem ofNat_sext16 (v : Byte) :
    BitVec.ofNat 16 (if v.toNat ≤ 127 then v.toNat else v.toNat + 65280) = sext16 v := by
  rw [← toNat_sext16, BitVec.ofNat_toNat, BitVec.setWidth_eq]

theorem ofNat_rmOf (m : Byte) : BitVec.ofNat 3 (m.toNat % 8) = rmOf m := by
  rw [← toNat_rmOf, BitVec.ofNat_toNat, BitVec.setWidth_eq]

theorem ofNat_regOf (m : Byte) : BitVec.ofNat 3 (m.toNat / 8) = regOf m := by
  apply BitVec.eq_of_toNat_eq
  rw [toNat_regOf, BitVec.toNat_ofNat]

theorem ofNat_leadReg (lead : Byte) : BitVec.ofNat 3 lead.toNat = leadReg lead := by
  apply BitVec.eq_of_toNat_eq
  rw [toNat_leadReg, BitVec.toNat_ofNat]

/-- The leading byte of shape RM_REG as a number (R38). -/
theorem toNat_lead_rmReg : ∀ d w : Bool,
    (0b100010#6 ++ BitVec.ofBool d ++ BitVec.ofBool w : Byte).toNat = 0x88 + 2 * d.toNat + w.toNat := by decide

/-- The leading byte of shape IMM_REG as a number (R41). -/
theorem toNat_lead_immReg : ∀ (w : Bool) (reg : Code),
    (0b1011#4 ++ BitVec.ofBool w ++ reg : Byte).toNat = 0xB0 + 8 * w.toNat + reg.toNat := by decide

/-- The leading bytes of the other shapes as numbers (R42). -/
theorem toNat_lead_wBit : ∀ w : Bool,
    (0b1100011#7 ++ BitVec.ofBool w : Byte).toNat = 0xC6 + w.toNat ∧
    (0b1010000#7 ++ BitVec.ofBool w : Byte).toNat = 0xA0 + w.toNat ∧
    (0b1010001#7 ++ BitVec.ofBool w : Byte).toNat = 0xA2 + w.toNat := by decide

theorem widthOfBit_zero (lead : Byte) : Claims.widthOfBit lead 0 = widthOf (wBit lead) := widthOfBit_eq lead 0

theorem widthOfBit_three (lead : Byte) : Claims.widthOfBit lead 3 = widthOf (wBitImmReg lead) := widthOfBit_eq lead 3

/-- The arithmetic table of R75 is the decoder's operand side. -/
theorem modRmOperand_eq (m : Byte) (w : Bool) (bs : List Byte) :
    Claims.modRmOperand m (widthOf w) bs =
      (takeForm (modOf m) (rmOf m) bs).map fun p => (p.1.operand w, p.1.extra) := by
  simp only [Claims.modRmOperand, ofNat_rmOf, ofNat_le16, ofNat_sext16]
  rw [← toNat_modOf, ← toNat_rmOf]
  generalize modOf m = mod
  generalize rmOf m = rm
  obtain rfl | rfl | rfl | rfl := mod_cases mod
  · by_cases h6 : rm = 6
    · subst h6
      match bs with
      | [] => rfl
      | [_] => rfl
      | _ :: _ :: _ => rfl
    · obtain ⟨f, hf, hextra, hoperand⟩ := takeForm_base h6 bs
      have hrm6 : rm.toNat ≠ 6 := fun h => h6 (BitVec.eq_of_toNat_eq h)
      rw [hf]
      simp [hextra, hoperand, baseOperand, hrm6]
  · cases bs <;> rfl
  · match bs with
    | [] => rfl
    | [_] => rfl
    | _ :: _ :: _ => rfl
  · rfl

/-- The arithmetic reading of an immediate is the decoder's (R84). -/
theorem immediateBytes_eq (w : Bool) (bs : List Byte) :
    Claims.immediateBytes (widthOf w) bs =
      if w then (take16 bs).map fun p => (p.1, 2) else (take8 bs).map fun p => (sext16 p.1, 1) := by
  cases w
  · cases bs with
    | nil => rfl
    | cons b bs => exact congrArg (fun v => some (v, 1)) (ofNat_sext16 b)
  · match bs with
    | [] => rfl
    | [_] => rfl
    | lo :: hi :: _ => exact congrArg (fun v => some (v, 2)) (ofNat_le16 lo hi)

/-- Bit 1 of the leading byte orders the two operands of shape RM_REG (R77, R89). -/
theorem rmRegRecord_dBit (lead : Byte) (w : Bool) (reg : Code) (m : Operand) :
    rmRegRecord (dBit lead) w reg m = if lead.toNat / 2 % 2 = 0 then ⟨.mov, m, regOperand reg w, false⟩
      else ⟨.mov, regOperand reg w, m, false⟩ := by
  have hd : dBit lead = decide (lead.toNat / 2 % 2 = 1) := getLsbD_eq_decide lead 1
  rw [rmRegRecord, hd]
  obtain h | h := Nat.mod_two_eq_zero_or_one (lead.toNat / 2) <;> simp [h]

/-- The record of shape IMM_MEM is qualified exactly when `mod` is not 11 (R113, R116). -/
theorem qualifiedFor_operand {m : Byte} {bs rest : List Byte} {f : RmForm} (w : Bool)
    (h : takeForm (modOf m) (rmOf m) bs = some (f, rest)) :
    qualifiedFor (f.operand w) = decide (192 > m.toNat) := by
  have hb := (takeForm_eq_some h).2
  have hmod : qualifiedFor (f.operand w) = decide (modOf m ≠ 3) := by
    cases f <;> rw [(List.cons.inj hb).1, modOf_modRm] <;> rfl
  have hm := m.isLt
  have hthree : modOf m = 3 ↔ m.toNat / 64 = 3 := by rw [← toNat_modOf, ← BitVec.toNat_inj]; rfl
  rw [hmod, decide_eq_decide, Ne, hthree]
  omega

end Sys2Proof
end

section
/-! What a running step does with the bytes before the cursor, and that it looks at nothing else of SRC. -/

namespace Sys2Proof.Machine

open Sys2Proof

variable {s : State} {lead : Byte} {after : List Byte}

/-- Where the bytes run out the cursor stands at LEN (R139). -/
theorem step_eq_afterTruncated (hs : s.final = .running) (hw : s.src.wf = true) (hb : s.stream = lead :: after)
    (hp : parse lead after = none) : step s = .next (Claims.afterTruncated s lead) := by
  have hlen : s.off + s.stream.length = s.src.len := by
    have hpos : 0 < s.stream.length := by simp [hb]
    have hstream := State.length_stream hw
    omega
  rw [step_of_truncated hs hb hp, s.truncate_eq lead hs, hlen, Claims.afterTruncated]

/-- A format that is complete delivers its record (R64, R65). -/
theorem step_eq_afterDecoded (hs : s.final = .running) (hb : s.stream = lead :: after) {f : Format}
    {rest : List Byte} (hp : parse lead after = some (f, rest)) {r : DecodedInstruction} (hr : f.record = some r)
    {n : Nat} (hn : f.length = n) : step s = .next (Claims.afterDecoded s r n) := by
  subst hn
  obtain ⟨hok, hbytes⟩ := parse_eq_some hp
  obtain ⟨r', hr', hres, -⟩ | ⟨lead', rfl, -⟩ := f.result_cases s.off
  · obtain rfl : r = r' := Option.some.inj (hr.symm.trans hr')
    rw [step_of_format hs hok (hb.trans hbytes), hres]
    rfl
  · simp [Format.record] at hr

/-- All that an unrecognized byte does while the pass runs (R140). -/
theorem State.reject_eq (hs : s.final = .running) (lead : Byte) : s.reject lead = Claims.afterUnrecognized s lead := by
  cases hp : s.policy <;>
    simp [State.reject, State.conclude, State.settle, State.report, State.finish, State.emit, State.setOff,
      State.setRes, Claims.afterUnrecognized, newline, hp, hs]

/-- What an attempt at offset `start` reports and how many bytes it consumes, where `lead` and then `after` stand
before the cursor. -/
def attemptAt (start : Nat) (lead : Byte) (after : List Byte) : Result × Nat :=
  match parse lead after with
  | some p => (p.1.result start, p.1.length)
  | none => (.truncatedInstruction start lead, 1 + after.length)

/-- A running step with a byte before the cursor is the end of that attempt. -/
theorem step_eq_attemptAt (hs : s.final = .running) (hb : s.stream = lead :: after) :
    step s = .next (s.conclude (attemptAt s.off lead after).1 (s.off + (attemptAt s.off lead after).2)) := by
  unfold attemptAt
  cases hp : parse lead after with
  | some p =>
    obtain ⟨hok, hbytes⟩ := parse_eq_some hp
    exact step_of_format hs hok (hb.trans hbytes)
  | none =>
    rw [step_of_truncated hs hb hp, State.truncate, hb, List.length_cons, Nat.add_comm after.length]

/-- Of the ModRM byte of shape IMM_MEM only `mod` and `rm` count (R54, R117). -/
theorem attemptAt_immMem {lead m m' : Byte} (hc : classify lead = .immMem) (hmod : modOf m = modOf m')
    (hrm : rmOf m = rmOf m') (start : Nat) (rest : List Byte) :
    attemptAt start lead (m :: rest) = attemptAt start lead (m' :: rest) := by
  simp only [attemptAt, parse_immMem hc, hmod, hrm]
  cases takeForm (modOf m') (rmOf m') rest with
  | none => rfl
  | some p =>
    cases wBit lead with
    | false => cases hv : take8 p.2 <;> simp [hv, Format.result, Format.length]
    | true => cases hv : take16 p.2 <;> simp [hv, Format.result, Format.length]

theorem State.finish_replace_src (s : State) (src' : Memory) (f : Final) :
    State.finish f { s with src := src' } = { s.finish f with src := src' } := by
  cases hf : s.final <;> simp [State.finish, hf]

theorem State.report_replace_src (s : State) (src' : Memory) (r : Result) :
    State.report r { s with src := src' } = { s.report r with src := src' } := by
  cases r <;> rfl

theorem State.settle_replace_src (s : State) (src' : Memory) (r : Result) :
    State.settle r { s with src := src' } = { s.settle r with src := src' } := by
  cases r with
  | decoded record start length => rfl
  | endOfStream start => exact s.finish_replace_src src' _
  | truncatedInstruction start lead => exact s.finish_replace_src src' _
  | unrecognized start lead =>
    cases hp : s.policy with
    | halt => simpa only [State.settle, hp] using s.finish_replace_src src' _
    | skipOne => simp only [State.settle, hp]
    | placeholder => simp only [State.settle, State.emit, hp]

/-- The end of an attempt does not look at SRC. -/
theorem State.conclude_replace_src (s : State) (src' : Memory) (r : Result) (off : Nat) :
    State.conclude r off { s with src := src' } = { s.conclude r off with src := src' } :=
  (congrArg (State.settle r) ((s.setOff off).report_replace_src src' r)).trans
    (((s.setOff off).report r).settle_replace_src src' r)

end Sys2Proof.Machine
end

section
/-! The obligations of 30_encoding.md, settled. -/

namespace Sys2Proof

open Sys2Proof.Machine

/-- Settles O10: the bytes of the instruction's format decode to the row of that format, which is the instruction. -/
theorem decodeOfEncodeIsTheInstruction : Obligations.DecodeOfEncodeIsTheInstruction := by
  intro i rest hi
  obtain ⟨hok, hrow⟩ := format_spec i hi
  rw [encode, decode_of_bytes _ hok, hrow]

/-- Settles O11: what was read are the bytes of a format, and the instruction is the row of that format. -/
theorem encodeOfDecodeIsTheBytes : Obligations.EncodeOfDecodeIsTheBytes := by
  intro bytes i rest h
  obtain ⟨f, hf, rfl, rfl⟩ := decode_eq_instr h
  obtain ⟨hformat, hwf⟩ := ofFormat_spec f hf
  exact ⟨hwf, by rw [encode, hformat]⟩

/-- Settles O14: a format has the length `instr_len` says, and one with a shape has 2 to 6 bytes. -/
theorem instructionLengthFromTwoBytes : Obligations.InstructionLengthFromTwoBytes := by
  intro i hi
  have hok := (format_spec i hi).1
  obtain ⟨lead, tail, hbytes, hlen⟩ := Format.length_eq_instrLen hok
  have hlength : (encode i).length = i.format.length := i.format.length_bytes
  refine ⟨lead, tail, hbytes, hlength.trans hlen, fun hshape => ?_⟩
  rw [hlength]
  obtain ⟨r, hr, -⟩ | ⟨lead', hf, -⟩ := i.format.result_cases 0
  · exact Format.length_bounds hr
  · rw [hf] at hok hbytes
    obtain ⟨rfl, -⟩ : lead' = lead ∧ [] = tail := by simpa [Format.bytes] using hbytes
    exact absurd (by simpa [Format.ok] using hok) hshape

/-- Settles O15: each byte sequence is the encoding of its instruction, with nothing or one byte behind it. -/
theorem sampleWordsDecode : Obligations.SampleWordsDecode :=
  ⟨decodeOfEncodeIsTheInstruction (.mov89Reg 3 1) [] rfl,
   decodeOfEncodeIsTheInstruction (.movB9 12) [] rfl,
   decodeOfEncodeIsTheInstruction (.movC6Disp8 0 6 75 12) [] rfl,
   decodeOfEncodeIsTheInstruction (.mov8BDirect 1 3841) [] rfl,
   decodeOfEncodeIsTheInstruction (.movA1 2555) [] rfl,
   decodeOfEncodeIsTheInstruction (.movA3 2555) [] rfl,
   decodeOfEncodeIsTheInstruction (.unrecognized90to9F 0x90) [0x89] rfl⟩

/-- Settles O13: six bytes hold an instruction, its row matches its bytes, and the rows exclude each other. -/
theorem opcodeTableRowsPartitionTheDecoder : Obligations.OpcodeTableRowsPartitionTheDecoder := by
  refine ⟨rfl, fun b0 b1 tail hlen => ?_⟩
  obtain ⟨f, rest, hf, hb⟩ := exists_format_of_length (lead := b0) (bs := b1 :: tail) (by simp; omega)
  obtain ⟨row, hrow, hmatch, hlength⟩ := exists_row_of_format hf hb.symm
  refine ⟨Instr.ofFormat f, rest, by rw [hb, decode_of_bytes f hf], fun k r hk => ⟨fun h => ?_, ?_⟩, ?_⟩
  · exact eq_of_matches hk hrow h hmatch
  · rintro rfl
    obtain rfl : row = r := Option.some.inj (hrow.symm.trans hk)
    exact hmatch
  · rw [hrow, encode, (ofFormat_spec f hf).1, f.length_bytes, ← hlength]; rfl

/-- Settles O30, by what the operand side takes: the arithmetic table of R75 reads the same bytes. -/
theorem rmRegStepFromBytes : Obligations.RmRegStepFromBytes := by
  intro s lead after hs hw hc hb
  refine ⟨fun hnil => ?_, fun m rest hcons => ?_⟩
  · subst hnil
    exact step_eq_afterTruncated hs hw hb (parse_nil (by simp [hc]))
  · subst hcons
    simp only [widthOfBit_zero, modRmOperand_eq, ofNat_regOf]
    cases htake : takeForm (modOf m) (rmOf m) rest with
    | none => exact step_eq_afterTruncated hs hw hb (by simp [parse_rmReg hc, htake])
    | some p =>
      obtain ⟨f, rest'⟩ := p
      have hp : parse lead (m :: rest) = some (.rmReg (dBit lead) (wBit lead) (regOf m) f, rest') := by
        simp [parse_rmReg hc, htake]
      have hstep := step_eq_afterDecoded hs hb hp rfl rfl
      rw [rmRegRecord_dBit] at hstep
      exact hstep

/-- Settles O31, by the width bit and the bytes of the immediate. -/
theorem immRegStepFromBytes : Obligations.ImmRegStepFromBytes := by
  intro s lead after hs hw hc hb
  simp only [widthOfBit_three, immediateBytes_eq, ofNat_leadReg]
  cases hwide : wBitImmReg lead with
  | false =>
    cases hv : take8 after with
    | none => exact step_eq_afterTruncated hs hw hb (by simp [parse_immReg hc, hwide, hv])
    | some p =>
      have hp : parse lead after = some (.immReg8 (leadReg lead) p.1, p.2) := by simp [parse_immReg hc, hwide, hv]
      exact step_eq_afterDecoded hs hb hp rfl rfl
  | true =>
    cases hv : take16 after with
    | none => exact step_eq_afterTruncated hs hw hb (by simp [parse_immReg hc, hwide, hv])
    | some p =>
      have hp : parse lead after = some (.immReg16 (leadReg lead) p.1, p.2) := by simp [parse_immReg hc, hwide, hv]
      exact step_eq_afterDecoded hs hb hp rfl rfl

/-- Settles O32: first the operand side, then the immediate at the width bit from what the operand side left. -/
theorem immMemStepFromBytes : Obligations.ImmMemStepFromBytes := by
  intro s lead after hs hw hc hb
  refine ⟨fun hnil => ?_, fun m rest hcons => ?_⟩
  · subst hnil
    exact step_eq_afterTruncated hs hw hb (parse_nil (by simp [hc]))
  · subst hcons
    simp only [widthOfBit_zero, modRmOperand_eq, immediateBytes_eq]
    cases htake : takeForm (modOf m) (rmOf m) rest with
    | none => exact step_eq_afterTruncated hs hw hb (by simp [parse_immMem hc, htake])
    | some p =>
      obtain ⟨f, rest'⟩ := p
      have hrest := (takeForm_rest htake).1
      simp only [Option.map_some, ← hrest, ← qualifiedFor_operand (wBit lead) htake]
      cases hwide : wBit lead with
      | false =>
        cases hv : take8 rest' with
        | none => exact step_eq_afterTruncated hs hw hb (by simp [parse_immMem hc, htake, hwide, hv])
        | some q =>
          have hp : parse lead (m :: rest) = some (.immMem8 (regOf m) f q.1, q.2) := by
            simp [parse_immMem hc, htake, hwide, hv]
          exact step_eq_afterDecoded hs hb hp rfl (Nat.add_right_comm 2 1 f.extra)
      | true =>
        cases hv : take16 rest' with
        | none => exact step_eq_afterTruncated hs hw hb (by simp [parse_immMem hc, htake, hwide, hv])
        | some q =>
          have hp : parse lead (m :: rest) = some (.immMem16 (regOf m) f q.1, q.2) := by
            simp [parse_immMem hc, htake, hwide, hv]
          exact step_eq_afterDecoded hs hb hp rfl (Nat.add_right_comm 2 2 f.extra)

/-- Settles O33, by the number of bytes behind the leading byte. -/
theorem accumulatorStepFromBytes : Obligations.AccumulatorStepFromBytes := by
  intro s lead after hs hw hlo hhi hb
  have hp := parse_acc hlo hhi
  simp only [widthOfBit_zero, ofNat_le16]
  match after, hb with
  | [], hb => exact step_eq_afterTruncated hs hw hb (hp _)
  | [_], hb => exact step_eq_afterTruncated hs hw hb (hp _)
  | lo :: hi :: rest, hb =>
    have hstep := fun r => step_eq_afterDecoded (r := r) (n := 3) hs hb (hp _)
    by_cases hlt : lead.toNat < 0xA2
    · simp only [if_pos hlt] at hstep ⊢
      exact hstep _ rfl rfl
    · simp only [if_neg hlt] at hstep ⊢
      exact hstep _ rfl rfl

/-- Settles O36: the byte alone is a format, which rejects it. -/
theorem unrecognizedByteStep : Obligations.UnrecognizedByteStep := by
  intro s lead hs hw hread hc
  obtain ⟨rest, hb⟩ := List.head?_eq_some_iff.mp ((State.read_eq_head hw).symm.trans hread)
  have hok : (Format.noShape lead).ok = true := by simpa [Format.ok] using hc
  rw [step_of_format hs hok hb, ← State.reject_eq hs]
  rfl

/-- Settles O49: both attempts report the same and consume as much, and their ends do not look at SRC. -/
theorem ignoredRegFieldHasNoEffect : Obligations.IgnoredRegFieldHasNoEffect := by
  intro s t src' lead m m' rest hs hc hb hb' hmod hrm ht
  have hstep := step_eq_attemptAt hs hb
  have hstep' := step_eq_attemptAt (s := { s with src := src' }) hs hb'
  obtain rfl : s.conclude _ _ = t := by simpa [hstep] using ht
  rw [hstep', State.conclude_replace_src, attemptAt_immMem hc hmod hrm]

/-- Settles O3: the fields are quotients and remainders of the byte, and a recognized leading byte is its pattern. -/
theorem fieldExtractorByArithmetic : Obligations.FieldExtractorByArithmetic := by
  refine ⟨fun m => ?_, fun lead => ?_, rfl, rfl⟩
  · rw [toNat_modOf, toNat_regOf, toNat_rmOf]
    omega
  · obtain ⟨hrmReg, himmReg, himmMem, hmemAcc, haccMem⟩ := lead_of_classify lead
    obtain ⟨hnumC6, hnumA0, hnumA2⟩ := toNat_lead_wBit (wBit lead)
    exact ⟨fun hc => by rw [← toNat_lead_rmReg, hrmReg hc], fun hc => by rw [← toNat_lead_immReg, himmReg hc],
      fun hc => by rw [← hnumC6, himmMem hc], fun hc => by rw [← hnumA0, hmemAcc hc],
      fun hc => by rw [← hnumA2, haccMem hc]⟩

end Sys2Proof
end

section
/-! Framing as an equivalence over byte lists: what parses has the length of R50, and nothing parses exactly where
fewer bytes are there (R66). -/

namespace Sys2Proof

open Sys2Proof.Machine

variable {lead : Byte} {bs rest : List Byte} {f : Format}

/-- A byte without a shape is a format by itself, whatever follows it. -/
theorem parse_noShape (hc : classify lead = .noShape) (bs : List Byte) : parse lead bs = some (.noShape lead, bs) := by
  simp [parse, hc]

/-- A recognized leading byte starts a format with a record. -/
theorem exists_record_of_parse (hc : classify lead ≠ .noShape) (h : parse lead bs = some (f, rest)) :
    ∃ r, f.record = some r := by
  obtain ⟨hok, hb⟩ := parse_eq_some h
  obtain ⟨r, hr, -⟩ | ⟨lead', rfl, -⟩ := f.result_cases 0
  · exact ⟨r, hr⟩
  · obtain rfl := (List.cons.inj hb).1
    exact absurd (by simpa [Format.ok] using hok) hc

/-- The bytes of a format and those after it are all that stood there. -/
theorem length_of_parse (h : parse lead bs = some (f, rest)) : 1 + bs.length = f.length + rest.length := by
  rw [← f.length_bytes, ← List.length_append, ← (parse_eq_some h).2, List.length_cons, Nat.add_comm]

/-- What `parse` took has the length that the leading byte and the byte after it say (R50). -/
theorem length_eq_instrLen_of_parse (h : parse lead bs = some (f, rest)) :
    f.length = Claims.instrLen lead (bs.headD 0) := by
  obtain ⟨hok, hb⟩ := parse_eq_some h
  obtain ⟨lead', tail, hbytes, hlen⟩ := Format.length_eq_instrLen hok
  obtain ⟨rfl, rfl⟩ : lead = lead' ∧ bs = tail ++ rest := by simpa [hbytes] using hb
  cases tail with
  | cons m tail => exact hlen
  | nil =>
    have hone : f.length = 1 := by rw [← f.length_bytes, hbytes]; rfl
    by_cases hc : classify lead = .noShape
    · simp [hone, Claims.instrLen, hc]
    · obtain ⟨r, hr⟩ := exists_record_of_parse hc h
      have htwo := (Format.length_bounds hr).1
      omega

/-- The decoder runs out of bytes exactly where fewer are there than `instr_len` says (R66). -/
theorem parse_eq_none_iff : parse lead bs = none ↔ 1 + bs.length < Claims.instrLen lead (bs.headD 0) := by
  refine ⟨length_lt_of_parse_eq_none, fun hlt => ?_⟩
  cases h : parse lead bs with
  | none => rfl
  | some p =>
    have hlen := length_eq_instrLen_of_parse h
    have hall := length_of_parse h
    omega

end Sys2Proof
end

section
/-! One attempt of the block, `decode_one` (R64), by the bytes before the cursor. -/

namespace Sys2Proof.Machine

open Sys2Proof

variable {s : State} {lead : Byte} {after : List Byte}

/-- Nothing stands before the cursor exactly from LEN on. -/
theorem State.stream_eq_nil_iff (hw : s.src.wf = true) : s.stream = [] ↔ s.src.len ≤ s.off := by
  rw [← List.length_eq_zero_iff, State.length_stream hw, Nat.sub_eq_zero_iff_le]

/-- A byte at the cursor is the first of those before it. -/
theorem State.exists_stream_eq_cons (hw : s.src.wf = true) (hread : s.src.read s.off = some lead) :
    ∃ after, s.stream = lead :: after :=
  List.head?_eq_some_iff.mp ((State.read_eq_head hw).symm.trans hread)

/-- The byte after the one at the cursor, 0 if missing. -/
theorem State.getD_read_next (hw : s.src.wf = true) (hb : s.stream = lead :: after) :
    (s.src.read (s.off + 1)).getD 0 = after.headD 0 := by
  rw [State.read_next hw, hb]
  cases after <;> rfl

/-- With a byte before it the cursor stands below LEN, by as many bytes as stand there. -/
theorem State.len_eq_of_stream (hw : s.src.wf = true) (hb : s.stream = lead :: after) :
    s.src.len = s.off + (1 + after.length) := by
  have hlen := State.length_stream hw
  rw [hb, List.length_cons] at hlen
  omega

/-- The end of the stream at an instruction boundary (R138). -/
theorem decodeOne_of_nil (hw : s.src.wf = true) (hb : s.stream = []) :
    decodeOne s = s.setRes (.endOfStream s.off) := by
  simp [decodeOne, nextByte_of_nil hw hb]

/-- Byte by byte, the block reports what the whole-instruction attempt does, and leaves the cursor where it does. -/
theorem decodeOne_of_cons (hw : s.src.wf = true) (hb : s.stream = lead :: after) :
    decodeOne s =
      (s.setOff (s.off + (attemptAt s.off lead after).2)).report (attemptAt s.off lead after).1 := by
  have hstream : (s.setOff (s.off + 1)).stream = after := by rw [State.stream_setOff hw, hb]; rfl
  simp only [decodeOne, nextByte_of_cons hw hb, attemptAt]
  cases hd : dispatch lead with
  | none =>
    rw [parse_noShape ((dispatch_eq_none_iff lead).mp hd)]
    rfl
  | some routine =>
    have hc : classify lead ≠ .noShape := fun h => by simp [(dispatch_eq_none_iff lead).mpr h] at hd
    obtain ⟨hsome, hnone⟩ := Reads.dispatch hd (s.setOff (s.off + 1)) hw
    rw [hstream] at hsome hnone
    cases hp : parse lead after with
    | none =>
      simp only [hnone (by simp [hp]), State.setOff_setOff, State.setOff_off, Nat.add_assoc]
      rfl
    | some p =>
      obtain ⟨f, rest⟩ := p
      obtain ⟨r, hr⟩ := exists_record_of_parse hc hp
      obtain ⟨n, hn, rfl, hx⟩ := hsome r rest (by simp [hp, hr])
      have hlen : 1 + n = f.length := by
        have hall := length_of_parse hp
        rw [List.length_drop] at hall
        omega
      obtain ⟨r', hr', hres, -⟩ | ⟨lead', rfl, -⟩ := f.result_cases s.off
      · obtain rfl : r = r' := Option.some.inj (hr.symm.trans hr')
        simp [hx, hres, Nat.add_assoc, hlen, State.report]
      · simp [Format.record] at hr

/-- The block does not write SRC. -/
theorem decodeOne_src (hw : s.src.wf = true) : (decodeOne s).src = s.src := by
  cases hb : s.stream with
  | nil => rw [decodeOne_of_nil hw hb, State.setRes_src]
  | cons lead after => rw [decodeOne_of_cons hw hb, State.report_src, State.setOff_src]

/-- At the end of the stream and behind a truncated instruction the cursor stands at LEN (R138, R139). -/
theorem decodeOne_off_eq_len (hs : cursorInBounds s = true) {start : Nat}
    (h : (decodeOne s).res = some (.endOfStream start) ∨ (decodeOne s).res = some (.truncatedInstruction start lead)) :
    (decodeOne s).off = s.src.len := by
  have hw := ((cursorInBounds_iff s).mp hs).1
  have hend := State.off_add_length_stream hs
  cases hb : s.stream with
  | nil =>
    rw [hb] at hend
    rw [decodeOne_of_nil hw hb]
    exact hend
  | cons lead' after =>
    rw [decodeOne_of_cons hw hb, State.report_res] at h
    rw [decodeOne_of_cons hw hb, State.report_off, State.setOff_off]
    cases hp : parse lead' after with
    | none =>
      rw [State.len_eq_of_stream hw hb, attemptAt, hp]
    | some p =>
      simp only [attemptAt, hp] at h
      obtain ⟨r, -, hres, -⟩ | ⟨lead', -, hres⟩ := p.1.result_cases s.off
      · simp [hres] at h
      · simp [hres] at h

/-- A step is the block's attempt and the sequencer's answer to its result (R67). -/
theorem step_eq_iterate (hw : s.src.wf = true) (hs : s.final = .running) : step s = .next (iterate s) := by
  cases hb : s.stream with
  | nil => rw [step_of_nil hs hb, iterate, decodeOne_of_nil hw hb]; rfl
  | cons lead after =>
    rw [step_eq_attemptAt hs hb, iterate, decodeOne_of_cons hw hb, State.report_res]
    rfl

end Sys2Proof.Machine
end

section
/-! A pass (R67): what every step keeps holds at its end, it ends (R163), and what a clean one has read (R66). -/

namespace Sys2Proof.Machine

open Sys2Proof

variable {s t : State}

theorem run_succ (h : step s = .next t) (n : Nat) : run (n + 1) s = run n t := by simp [run, h]

theorem results_succ (h : step s = .next t) (n : Nat) : results (n + 1) s = t.res.toList ++ results n t := by
  simp [results, h]

/-- Once the pass is over, further steps change nothing (R158). -/
theorem run_of_ended (h : s.ended = true) (n : Nat) : run n s = s := by
  cases n <;> simp [run, step_of_ended h]

theorem results_of_ended (h : s.ended = true) (n : Nat) : results n s = [] := by
  cases n <;> simp [results, step_of_ended h]

/-- What every step keeps, a pass keeps. -/
theorem run_invariant {P : State → Prop} (hstep : ∀ s t, P s → step s = .next t → P t) (n : Nat) (hs : P s) :
    P (run n s) := by
  induction n generalizing s with
  | zero => exact hs
  | succ n ih =>
    cases h : step s with
    | next t => rw [run_succ h]; exact ih (hstep s t hs h)
    | fault r => simpa [run, h] using hs
    | refused r => simpa [run, h] using hs

/-- Where no other lines are written, a pass keeps OUT the listing of RECS (R136). -/
theorem out_run_eq_listing (hs : outIsListing s = true) (hp : s.policy ≠ .placeholder) (n : Nat) :
    (run n s).out = listing (run n s).recs := by
  have hkeep : ∀ u t, outIsListing u = true ∧ u.policy ≠ .placeholder → step u = .next t →
      outIsListing t = true ∧ t.policy ≠ .placeholder := by
    intro u t ⟨hu, hpu⟩ h
    obtain ⟨-, -, -, hpolicy, -⟩ := launchInputsNeverChange u t h
    exact ⟨outStaysTheListingOfRecs.1 u t hu h, hpolicy ▸ hpu⟩
  obtain ⟨hlisting, hpolicy⟩ := run_invariant hkeep n ⟨hs, hp⟩
  exact ((outIsListing_iff _).mp hlisting).2 hpolicy

/-- How many attempts a pass can still make (R163): one per byte ahead, and one that finds the end. -/
def attemptsLeft (s : State) : Nat := if s.ended then 0 else s.src.len - s.off + 1

theorem attemptsLeft_le (s : State) : attemptsLeft s ≤ s.src.len - s.off + 1 := by
  unfold attemptsLeft; split <;> omega

theorem attemptsLeft_eq_zero_iff (s : State) : attemptsLeft s = 0 ↔ s.ended = true := by
  simp [attemptsLeft]

theorem ended_endAttempt (hs : s.final = .running) : s.endAttempt.ended = true := by
  simp [State.endAttempt_eq s hs, State.ended]

theorem ended_truncate (hs : s.final = .running) (lead : Byte) : (s.truncate lead).ended = true := by
  simp [State.truncate_eq s lead hs, State.ended]

/-- Every step ends the pass or moves the cursor on. -/
theorem ended_or_off_lt (h : step s = .next t) : t.ended = true ∨ s.off < t.off := by
  obtain ⟨hs, ⟨f, rest, r, -, -, hr, rfl⟩ | ⟨-, rfl⟩ | ⟨lead, tail, hb, rfl⟩ | ⟨lead, tail, -, -, rfl⟩⟩ :=
    step_result_cases h
  · have htwo := (Format.length_bounds hr).1
    simp [State.deliver]; omega
  · exact .inl (ended_endAttempt hs)
  · exact .inl (ended_truncate hs lead)
  · simp

/-- Every step within the stream uses up an attempt. -/
theorem attemptsLeft_lt (hs : cursorInBounds s = true) (h : step s = .next t) : attemptsLeft t < attemptsLeft s := by
  have hrun : s.ended = false := (State.ended_eq_false_iff s).mpr (step_cases h).1
  have hfrom : attemptsLeft s = s.src.len - s.off + 1 := by simp [attemptsLeft, hrun]
  have hsrc : t.src = s.src := (launchInputsNeverChange s t h).1
  obtain hended | hlt := ended_or_off_lt h
  · rw [(attemptsLeft_eq_zero_iff t).mpr hended, hfrom]
    exact Nat.succ_pos _
  · have hle := ((cursorInBounds_iff t).mp (cursorStaysInBounds.2.2 s t hs h).1).2
    have htop := attemptsLeft_le t
    rw [hsrc] at hle htop
    omega

/-- As many steps as attempts are left end the pass. -/
theorem ended_run_of_attemptsLeft_le {n : Nat} (hs : cursorInBounds s = true) (hn : attemptsLeft s ≤ n) :
    (run n s).ended = true := by
  induction n generalizing s with
  | zero => exact (attemptsLeft_eq_zero_iff s).mp (Nat.le_zero.mp hn)
  | succ n ih =>
    cases hended : s.ended with
    | true => rwa [run_of_ended hended]
    | false =>
      obtain ⟨t, h⟩ := step_of_running ((State.ended_eq_false_iff s).mp hended)
      have hlt := attemptsLeft_lt hs h
      rw [run_succ h]
      exact ih (cursorStaysInBounds.2.2 s t hs h).1 (by omega)

/-- Each attempt gives one result, so there are no more results than attempts left. -/
theorem length_results_le (hs : cursorInBounds s = true) (fuel : Nat) :
    (results fuel s).length ≤ attemptsLeft s := by
  induction fuel generalizing s with
  | zero => exact Nat.zero_le _
  | succ fuel ih =>
    cases hended : s.ended with
    | true => rw [results_of_ended hended]; exact Nat.zero_le _
    | false =>
      obtain ⟨t, h⟩ := step_of_running ((State.ended_eq_false_iff s).mp hended)
      have hlt := attemptsLeft_lt hs h
      have hrest := ih (cursorStaysInBounds.2.2 s t hs h).1
      have hone := Option.length_toList_le (o := t.res)
      rw [results_succ h, List.length_append]
      omega

/-- One instruction delivers the record of its format (R64). -/
theorem recordsOf_eq (i : Instr) : Claims.recordsOf i = i.format.record.toList := by
  have hrecs : Claims.recordsOf i =
      (State.reset.conclude (i.format.result State.reset.off) (State.reset.off + i.format.length)).recs := by
    simp only [Claims.recordsOf, exec_eq_conclude]
  obtain ⟨r, hr, hres, -⟩ | ⟨lead, hf, -⟩ := i.format.result_cases State.reset.off
  · rw [hrecs, hres, hr]; rfl
  · rw [hrecs, hf]; rfl

theorem length_encode_pos (i : Instr) : 0 < (encode i).length := by
  have hlength : (encode i).length = i.format.length := i.format.length_bytes
  obtain ⟨-, -, -, htwo, -⟩ | ⟨lead, hf, -⟩ := i.format.result_cases 0
  · omega
  · rw [hlength, hf]; exact Nat.one_pos

/-- The row of a format that has a record is a well-formed mov, with the bytes and the record of the format. -/
theorem mov_of_format {f : Format} {r : DecodedInstruction} (hf : f.ok = true) (hr : f.record = some r) :
    ((Instr.ofFormat f).wf = true ∧ (Instr.ofFormat f).ctorIdx < 62) ∧ encode (Instr.ofFormat f) = f.bytes ∧
      Claims.recordsOf (Instr.ofFormat f) = [r] := by
  obtain ⟨hformat, hwf⟩ := ofFormat_spec f hf
  have hmov := (Instr.ofFormat f).isSome_record_format
  rw [hformat, hr] at hmov
  exact ⟨⟨hwf, of_decide_eq_true hmov.symm⟩, congrArg Format.bytes hformat, by rw [recordsOf_eq, hformat, hr]; rfl⟩

/-- A delivered format is behind the cursor. -/
theorem State.stream_deliver (hw : s.src.wf = true) {f : Format} {rest : List Byte}
    (hb : s.stream = f.bytes ++ rest) (r : DecodedInstruction) : (s.deliver r f.length).stream = rest := by
  have hoff : (s.deliver r f.length).stream = (s.setOff (s.off + f.length)).stream := rfl
  rw [hoff, State.stream_setOff hw, hb, ← f.length_bytes, List.drop_left]

/-- A step on the encoding of a mov delivers its record and leaves the bytes after it. -/
theorem step_of_encode {i : Instr} (hi : i.wf = true ∧ i.ctorIdx < 62) {rest : List Byte} (hw : s.src.wf = true)
    (hs : s.final = .running) (hb : s.stream = encode i ++ rest) :
    ∃ t, step s = .next t ∧ t.src = s.src ∧ t.final = .running ∧ t.stream = rest ∧
      t.recs = s.recs ++ Claims.recordsOf i := by
  obtain ⟨hwf, hmov⟩ := hi
  have hsome : i.format.record.isSome = true := by simpa [i.isSome_record_format] using hmov
  obtain ⟨r, hr, hres, -⟩ | ⟨lead, hf, -⟩ := i.format.result_cases s.off
  · refine ⟨s.deliver r i.format.length, ?_, rfl, hs, State.stream_deliver hw hb r, ?_⟩
    · rw [step_of_format hs (format_spec i hwf).1 hb, hres]; rfl
    · rw [recordsOf_eq, hr]; rfl
  · simp [hf, Format.record] at hsome

/-- On a concatenation of encodings the pass reads them one by one and finds the end. -/
theorem run_flatMap_encode {is : List Instr} (his : ∀ i ∈ is, i.wf = true ∧ i.ctorIdx < 62) {n : Nat}
    (hw : s.src.wf = true) (hs : s.final = .running) (hb : s.stream = is.flatMap encode)
    (hn : s.stream.length < n) :
    (run n s).final = .doneOk ∧ (run n s).recs = s.recs ++ is.flatMap Claims.recordsOf := by
  induction n generalizing s is with
  | zero => exact absurd hn (Nat.not_lt_zero _)
  | succ n ih =>
    cases is with
    | nil =>
      rw [run_succ (step_of_nil hs hb), run_of_ended (ended_endAttempt hs), State.endAttempt_eq s hs]
      simp
    | cons i is =>
      obtain ⟨hi, his⟩ := List.forall_mem_cons.mp his
      rw [List.flatMap_cons] at hb
      obtain ⟨t, hstep, hsrc, hrun, hrest, hrecs⟩ := step_of_encode hi hw hs hb
      have hshort : t.stream.length < n := by
        have hpos := length_encode_pos i
        rw [hb, List.length_append, ← hrest] at hn
        omega
      obtain ⟨hfinal, hall⟩ := ih his (hsrc ▸ hw) hrun hrest hshort
      rw [run_succ hstep, hall, hrecs, List.flatMap_cons]
      exact ⟨hfinal, List.append_assoc ..⟩

/-- What a clean pass under HALT has read is a concatenation of encodings, and it lists their records. -/
theorem exists_flatMap_encode_of_doneOk {n : Nat} (hw : s.src.wf = true) (hp : s.policy = .halt)
    (hs : s.final = .running) (h : (run n s).final = .doneOk) :
    ∃ is : List Instr, (∀ i ∈ is, i.wf = true ∧ i.ctorIdx < 62) ∧ s.stream = is.flatMap encode ∧
      (run n s).recs = s.recs ++ is.flatMap Claims.recordsOf := by
  induction n generalizing s with
  | zero => simp [run, hs] at h
  | succ n ih =>
    obtain ⟨t, hstep⟩ := step_of_running hs
    rw [run_succ hstep] at h ⊢
    obtain ⟨-, ⟨f, rest, r, hf, hb, hr, rfl⟩ | ⟨hb, rfl⟩ | ⟨lead, tail, -, rfl⟩ | ⟨lead, tail, -, -, rfl⟩⟩ :=
      step_result_cases hstep
    · obtain ⟨is, his, hrest, hrecs⟩ := ih (s := s.deliver r f.length) hw hp hs h
      obtain ⟨hmov, hbytes, hrecord⟩ := mov_of_format hf hr
      rw [State.stream_deliver hw hb] at hrest
      refine ⟨Instr.ofFormat f :: is, List.forall_mem_cons.mpr ⟨hmov, his⟩, ?_, ?_⟩
      · rw [hb, hrest, List.flatMap_cons, hbytes]
      · rw [hrecs, List.flatMap_cons, hrecord]
        exact List.append_assoc ..
    · exact ⟨[], by simp, hb, by simp [run_of_ended (ended_endAttempt hs)]⟩
    · rw [run_of_ended (ended_truncate hs lead), State.truncate_eq s lead hs] at h
      cases h
    · have hreject : s.reject lead = Claims.afterUnrecognized s lead := State.reject_eq hs lead
      simp only [Claims.afterUnrecognized, hp] at hreject
      have hended : (s.reject lead).ended = true := by rw [hreject]; rfl
      rw [run_of_ended hended, hreject] at h
      cases h

end Sys2Proof.Machine
end

section
/-! The obligations of 40_cursor_and_classifier.md, settled. -/

namespace Sys2Proof.Machine

open Sys2Proof

/-- Settles O35: the decoder runs out of bytes exactly where fewer are there than `instr_len` says. -/
theorem framingProperty : Obligations.FramingProperty := by
  intro s lead hs hw hread hc
  obtain ⟨after, hb⟩ := State.exists_stream_eq_cons hw hread
  rw [State.getD_read_next hw hb, State.len_eq_of_stream hw hb]
  cases hp : parse lead after with
  | none =>
    have hshort := parse_eq_none_iff.mp hp
    exact ⟨fun _ => by omega, fun _ => step_eq_afterTruncated hs hw hb hp⟩
  | some p =>
    obtain ⟨r, hr⟩ := exists_record_of_parse hc hp
    have hlen := length_eq_instrLen_of_parse hp
    have hall := length_of_parse hp
    exact ⟨fun _ => ⟨r, step_eq_afterDecoded hs hb hp hr hlen⟩, fun _ => by omega⟩

/-- Settles O53: the routines read, byte by byte, what the decoder takes. -/
theorem stepRefinesThePseudocode : Obligations.StepRefinesThePseudocode :=
  fun _ hw hs => step_eq_iterate hw hs

/-- Settles O55: every step uses up one of the attempts left, of which there are at most LEN - OFF + 1. -/
theorem everyPassEnds : Obligations.EveryPassEnds :=
  fun s hs => ⟨ended_run_of_attemptsLeft_le hs (attemptsLeft_le s),
    fun fuel => (length_results_le hs fuel).trans (attemptsLeft_le s)⟩

/-- Settles O56, both ways by induction over the attempts; OUT is the listing of RECS throughout (O40). -/
theorem cleanPassMeansConcatenation : Obligations.CleanPassMeansConcatenation := by
  refine ⟨fun bytes h => ?_, fun is his => ?_⟩
  · obtain ⟨is, his, hstream, hrecs⟩ :=
      exists_flatMap_encode_of_doneOk (Memory.wf_ofBytes bytes) rfl rfl h
    rw [State.stream_launch] at hstream
    have hlisting := (invariantsHoldAtLaunch.2 bytes .halt).1
    exact ⟨is, his, hstream, hrecs, (out_run_eq_listing hlisting nofun _).trans (congrArg listing hrecs)⟩
  · have hstream := State.stream_launch (is.flatMap encode) .halt
    exact run_flatMap_encode his (Memory.wf_ofBytes _) rfl hstream (by rw [hstream]; simp)

/-- Settles O34: nothing stands before the cursor exactly at LEN, and no other attempt reports the end. -/
theorem endOfStreamStep : Obligations.EndOfStreamStep := by
  refine ⟨fun s hs hw => ⟨fun hoff => ?_, fun hlt t start h => ?_⟩, rfl, fun policy => ⟨_, rfl, rfl, rfl⟩⟩
  · rw [step_of_nil hs ((State.stream_eq_nil_iff hw).mpr (Nat.le_of_eq hoff.symm)), State.endAttempt_eq s hs, hoff]
  · obtain ⟨-, ⟨f, rest, r, -, -, -, rfl⟩ | ⟨hb, -⟩ | ⟨lead, tail, -, rfl⟩ | ⟨lead, tail, -, -, rfl⟩⟩ :=
      step_result_cases h
    · simp [State.deliver]
    · exact absurd ((State.stream_eq_nil_iff hw).mp hb) (Nat.not_le_of_lt hlt)
    · simp [State.truncate]
    · simp

/-- Settles O45, by what stands before the cursor. -/
theorem failedAttemptsOfTheBlock : Obligations.FailedAttemptsOfTheBlock := by
  refine fun s hw => ⟨fun hoff => ?_, fun lead hread hc hshort => ?_, fun lead hread hc => ?_⟩
  · rw [decodeOne_of_nil hw ((State.stream_eq_nil_iff hw).mpr (Nat.le_of_eq hoff.symm)), ← hoff]
    rfl
  · obtain ⟨after, hb⟩ := State.exists_stream_eq_cons hw hread
    have hlen := State.len_eq_of_stream hw hb
    rw [State.getD_read_next hw hb] at hshort
    have hp : parse lead after = none := parse_eq_none_iff.mpr (by omega)
    rw [decodeOne_of_cons hw hb, attemptAt, hp, hlen]
    rfl
  · obtain ⟨after, hb⟩ := State.exists_stream_eq_cons hw hread
    rw [decodeOne_of_cons hw hb, attemptAt, parse_noShape hc]
    rfl

/-- Settles O51: a byte stands exactly at the offsets below LEN. -/
theorem cursorContract : Obligations.CursorContract := by
  refine fun s hw => ⟨fun hlt => ?_, fun hle => ?_⟩
  · cases hread : s.src.read s.off with
    | none => exact absurd ((Memory.read_eq_none_iff _ hw _).mp hread) (Nat.not_le_of_lt hlt)
    | some b => exact ⟨b, rfl, by simp only [nextByte, hread]; rfl⟩
  · have hend := nextByte_of_nil hw ((State.stream_eq_nil_iff hw).mpr hle)
    exact ⟨hend, by rw [hend, hend]⟩

/-- Settles O52: the resolver and the arithmetic table of R75 both read what the decoder takes as the operand side. -/
theorem resolverByMode : Obligations.ResolverByMode := by
  intro s m w hw
  have hwidth : (if w then .word else .byte) = widthOf w := rfl
  obtain ⟨hsome, hnone⟩ := Reads.resolveRm (modOf m) (rmOf m) w s hw
  rw [hwidth, modRmOperand_eq]
  cases htake : takeForm (modOf m) (rmOf m) s.stream with
  | none =>
    have hend : s.off + s.stream.length = max s.off s.src.len := by rw [State.length_stream hw]; omega
    rw [← hend]
    exact hnone (by simp [htake])
  | some p =>
    obtain ⟨f, rest⟩ := p
    obtain ⟨n, hn, hrest, hx⟩ := hsome (f.operand w) rest (by simp [htake])
    obtain rfl : f.extra = n := by
      obtain ⟨hdrop, hextra⟩ := takeForm_rest htake
      have hthere := (takeForm_eq_none_iff (modOf m) (rmOf m) s.stream).not.mp (by simp [htake])
      have hlen := congrArg List.length (hdrop.symm.trans hrest)
      rw [List.length_drop, List.length_drop] at hlen
      omega
    exact hx

/-- Settles O54: either result leaves the cursor at LEN, where an attempt reports the end. -/
theorem attemptsAfterTheEnd : Obligations.AttemptsAfterTheEnd := by
  intro s hs ⟨start, lead, hres⟩
  have hw := ((cursorInBounds_iff s).mp hs).1
  have hsrc := decodeOne_src hw
  rw [← hsrc]
  exact (failedAttemptsOfTheBlock _ (hsrc ▸ hw)).1 (hsrc ▸ decodeOne_off_eq_len hs hres)

/-- Settles O2, by the 256 bytes. -/
theorem classifierByByteRanges : Obligations.ClassifierByByteRanges := by
  unfold Obligations.ClassifierByByteRanges
  decide

/-- Settles O26: each row rejects its byte. -/
theorem unrecognizedRowsCompleteAsPolicySays : Obligations.UnrecognizedRowsCompleteAsPolicySays := by
  intro s lead hs
  have hrow : ∀ i : Instr, i.format = .noShape lead → exec i s = .next (Claims.afterUnrecognized s lead) :=
    fun i hi => by rw [exec_eq_conclude, hi, ← State.reject_eq hs]; rfl
  exact ⟨hrow _ rfl, hrow _ rfl, hrow _ rfl, hrow _ rfl, hrow _ rfl, hrow _ rfl, hrow _ rfl, hrow _ rfl, hrow _ rfl,
    hrow _ rfl, hrow _ rfl⟩

end Sys2Proof.Machine
end

section
/-! Minimal decimal numerals (00_scope.md section 5, D9): which texts they are, and that `dec` writes them. -/

namespace Sys2Proof.Machine

open Sys2Proof

theorem toNat_digit : ∀ d < 10, (digit d).toNat = 48 + d := by decide

theorem eq_zero_of_digit_eq : ∀ d < 10, digit d = 0x30 → d = 0 := by decide

/-- `IsNumeral n t`: `t` is the minimal decimal numeral of `n`, one digit or a nonzero number's numeral and one more
digit. -/
inductive IsNumeral : Nat → Text → Prop
  | single {d : Nat} (hd : d < 10) : IsNumeral d [digit d]
  | snoc {n d : Nat} {t : Text} (ht : IsNumeral n t) (hn : 0 < n) (hd : d < 10) :
    IsNumeral (10 * n + d) (t ++ [digit d])

theorem isNumeral_decDigits {fuel n : Nat} (h : n < fuel) : IsNumeral n (decDigits fuel n) := by
  induction fuel generalizing n with
  | zero => exact absurd h (Nat.not_lt_zero n)
  | succ fuel ih =>
    unfold decDigits
    split
    next hlt => exact .single hlt
    next hge =>
      have hmore := (ih (n := n / 10) (by omega)).snoc (by omega) (Nat.mod_lt n (by decide))
      rwa [Nat.div_add_mod] at hmore

theorem isNumeral_dec (n : Nat) : IsNumeral n (dec n) := isNumeral_decDigits n.lt_succ_self

theorem numeralValue_snoc (t : Text) (b : Byte) :
    Claims.numeralValue (t ++ [b]) = 10 * Claims.numeralValue t + (b.toNat - 48) := by
  simp [Claims.numeralValue]

namespace IsNumeral

variable {n : Nat} {t : Text}

theorem numeralValue_eq (h : IsNumeral n t) : Claims.numeralValue t = n := by
  induction h with
  | single hd => simp [Claims.numeralValue, toNat_digit _ hd]
  | snoc _ _ hd ih => simp [numeralValue_snoc, ih, toNat_digit _ hd]

theorem exists_eq_digit (h : IsNumeral n t) : ∀ b ∈ t, ∃ d < 10, b = digit d := by
  induction h with
  | single hd => exact fun b hb => ⟨_, hd, List.mem_singleton.mp hb⟩
  | snoc _ _ hd ih =>
    intro b hb
    rcases List.mem_append.mp hb with hb | hb
    · exact ih b hb
    · exact ⟨_, hd, List.mem_singleton.mp hb⟩

/-- A further digit stands behind the leading one and only a nonzero number takes one, so the leading digit is 0 for
0 alone. -/
theorem exists_head (h : IsNumeral n t) : ∃ b, t.head? = some b ∧ (b = 0x30 → n = 0) := by
  induction h with
  | single hd => exact ⟨_, rfl, eq_zero_of_digit_eq _ hd⟩
  | snoc _ hn _ ih =>
    obtain ⟨b, hb, hzero⟩ := ih
    exact ⟨b, by simp [hb], fun h0 => absurd (hzero h0) (Nat.ne_of_gt hn)⟩

end IsNumeral

/-- Settles O6: `dec n` is a minimal numeral of `n`, and every minimal numeral has the four properties. -/
theorem decimalNumeralsAreMinimal : Obligations.DecimalNumeralsAreMinimal := by
  refine ⟨by decide, fun n => ?_⟩
  have hnum := isNumeral_dec n
  obtain ⟨b, hhead, hzero⟩ := hnum.exists_head
  refine ⟨hnum.numeralValue_eq, fun hnil => ?_, fun c hc => ?_, fun h0 => ?_⟩
  · simp [hnil] at hhead
  · obtain ⟨d, hd, rfl⟩ := hnum.exists_eq_digit c hc
    rw [toNat_digit d hd]
    omega
  · exact hzero (Option.some.inj (hhead.symm.trans h0))

end Sys2Proof.Machine
end

section
/-! What a row delivers, by the record and the length of its format, and the leading bytes of shape IMM_REG. -/

namespace Sys2Proof.Machine

open Sys2Proof

variable {i j : Instr}

/-- A row whose format has a record completes with it, whatever the state (R64, R142). -/
theorem exec_eq_afterDecoded {r : DecodedInstruction} {n : Nat} (hr : i.format.record = some r)
    (hn : i.format.length = n) (s : State) : exec i s = .next (Claims.afterDecoded s r n) := by
  subst hn
  obtain ⟨r', hr', hres, -⟩ | ⟨lead, hf, -⟩ := i.format.result_cases s.off
  · obtain rfl : r = r' := Option.some.inj (hr.symm.trans hr')
    rw [exec_eq_conclude, hres]
    rfl
  · simp [hf, Format.record] at hr

/-- A row of shape RM_REG keeps its fields, whatever the `rm` code in it. -/
theorem format_ofFormat_rmReg (d w : Bool) (reg : Code) (form : RmForm) :
    (Instr.ofFormat (.rmReg d w reg form)).format = .rmReg d w reg form := by
  cases d <;> cases w <;> cases form <;> rfl

/-- All 28 rows of shape RM_REG at once: `d` orders the operands, `w` is the width (R89 to R93). -/
theorem exec_rmReg (d w : Bool) (reg : Code) (s : State) (form : RmForm) :
    exec (Instr.ofFormat (.rmReg d w reg form)) s =
      .next (Claims.afterDecoded s (rmRegRecord d w reg (form.operand w)) (2 + form.extra)) := by
  apply exec_eq_afterDecoded <;> rw [format_ofFormat_rmReg] <;> rfl

/-- A register move is the same step in either direction, with the two registers exchanged (R94). -/
theorem exec_rmReg_register_comm (w : Bool) (a b : Code) (s : State) :
    exec (Instr.ofFormat (.rmReg false w a (.register b))) s =
      exec (Instr.ofFormat (.rmReg true w b (.register a))) s := by
  rw [exec_rmReg, exec_rmReg]
  rfl

theorem recordsOf_eq_of_record_eq (h : i.format.record = j.format.record) :
    Claims.recordsOf i = Claims.recordsOf j := by
  rw [recordsOf_eq, recordsOf_eq, h]

@[simp] theorem format_ofImmReg8 (reg : Code) (imm : Byte) : (ofImmReg8 reg imm).format = .immReg8 reg imm :=
  (ofFormat_spec (.immReg8 reg imm) rfl).1

@[simp] theorem format_ofImmReg16 (reg : Code) (imm : U16) : (ofImmReg16 reg imm).format = .immReg16 reg imm :=
  (ofFormat_spec (.immReg16 reg imm) rfl).1

/-- The leading byte of shape IMM_REG from its fields (R41). -/
theorem lead_immReg_eq_ofNat (w : Bool) (reg : Code) :
    (0b1011#4 ++ BitVec.ofBool w ++ reg : Byte) = BitVec.ofNat 8 (0xB0 + 8 * w.toNat + reg.toNat) := by
  rw [← toNat_lead_immReg, BitVec.ofNat_toNat, BitVec.setWidth_eq]

end Sys2Proof.Machine
end

section
/-! The obligations of 43_mov_rm_reg.md, settled. -/

namespace Sys2Proof.Machine

open Sys2Proof

/-- Settles O17: the rows of shape RM_REG with d = 0 and w = 0 (R90). -/
theorem opcode88CompletesWithItsRecord : Obligations.Opcode88CompletesWithItsRecord := by
  intro s reg rm d8 d16 addr
  have hrow := exec_rmReg false false reg s
  exact ⟨hrow (.baseLow rm), hrow (.baseMid rm), hrow .baseBx, hrow (.direct addr), hrow (.disp8 rm d8),
    hrow (.disp16 rm d16), hrow (.register rm)⟩

/-- Settles O18: the rows of shape RM_REG with d = 0 and w = 1 (R91). -/
theorem opcode89CompletesWithItsRecord : Obligations.Opcode89CompletesWithItsRecord := by
  intro s reg rm d8 d16 addr
  have hrow := exec_rmReg false true reg s
  exact ⟨hrow (.baseLow rm), hrow (.baseMid rm), hrow .baseBx, hrow (.direct addr), hrow (.disp8 rm d8),
    hrow (.disp16 rm d16), hrow (.register rm)⟩

/-- Settles O19: the rows of shape RM_REG with d = 1 and w = 0 (R92). -/
theorem opcode8ACompletesWithItsRecord : Obligations.Opcode8ACompletesWithItsRecord := by
  intro s reg rm d8 d16 addr
  have hrow := exec_rmReg true false reg s
  exact ⟨hrow (.baseLow rm), hrow (.baseMid rm), hrow .baseBx, hrow (.direct addr), hrow (.disp8 rm d8),
    hrow (.disp16 rm d16), hrow (.register rm)⟩

/-- Settles O20: the rows of shape RM_REG with d = 1 and w = 1 (R93). -/
theorem opcode8BCompletesWithItsRecord : Obligations.Opcode8BCompletesWithItsRecord := by
  intro s reg rm d8 d16 addr
  have hrow := exec_rmReg true true reg s
  exact ⟨hrow (.baseLow rm), hrow (.baseMid rm), hrow .baseBx, hrow (.direct addr), hrow (.disp8 rm d8),
    hrow (.disp16 rm d16), hrow (.register rm)⟩

/-- Settles O50: the register moves are the same step, and the other pairs have formats of the same record. The row of an
IMM_REG record is known by its format, for every register code at once. -/
theorem registerMovesHaveTwoEncodings : Obligations.RegisterMovesHaveTwoEncodings := by
  intro s a b ign v imm addr
  have hC6 : (Instr.movC6Reg ign a v).format.record = (ofImmReg8 a v).format.record := by
    rw [format_ofImmReg8]; rfl
  have hC7 : (Instr.movC7Reg ign a imm).format.record = (ofImmReg16 a imm).format.record := by
    rw [format_ofImmReg16]; rfl
  have hB0 : (encode (ofImmReg8 a v)).head? = some (BitVec.ofNat 8 (0xB0 + a.toNat)) := by
    rw [encode, format_ofImmReg8]; exact congrArg some (lead_immReg_eq_ofNat false a)
  have hB8 : (encode (ofImmReg16 a imm)).head? = some (BitVec.ofNat 8 (0xB8 + a.toNat)) := by
    rw [encode, format_ofImmReg16]; exact congrArg some (lead_immReg_eq_ofNat true a)
  exact ⟨exec_rmReg_register_comm false a b s, exec_rmReg_register_comm true a b s, recordsOf_eq_of_record_eq rfl,
    recordsOf_eq_of_record_eq rfl, recordsOf_eq_of_record_eq rfl, recordsOf_eq_of_record_eq rfl,
    recordsOf_eq_of_record_eq hC6, recordsOf_eq_of_record_eq hC7, hB0, hB8⟩

end Sys2Proof.Machine
end

section
/-! What the rows of shape IMM_REG do, every register code at once, and the obligations of 44_mov_imm_reg.md, settled. -/

namespace Sys2Proof.Machine

open Sys2Proof

/-- The eight byte rows of shape IMM_REG at once (R96 to R103). -/
theorem exec_ofImmReg8 (reg : Code) (imm : Byte) (s : State) :
    exec (ofImmReg8 reg imm) s =
      .next (Claims.afterDecoded s ⟨.mov, .register reg .byte, .immediate (sext16 imm) .byte, false⟩ 2) := by
  apply exec_eq_afterDecoded <;> rw [format_ofImmReg8] <;> rfl

/-- The eight word rows of shape IMM_REG at once (R104 to R111). -/
theorem exec_ofImmReg16 (reg : Code) (imm : U16) (s : State) :
    exec (ofImmReg16 reg imm) s =
      .next (Claims.afterDecoded s ⟨.mov, .register reg .word, .immediate imm .word, false⟩ 3) := by
  apply exec_eq_afterDecoded <;> rw [format_ofImmReg16] <;> rfl

/-- Settles O21: B0 to B7 are the byte rows of the register codes 0 to 7. -/
theorem byteImmediatesToRegistersComplete : Obligations.ByteImmediatesToRegistersComplete := by
  intro s imm
  have hrow (reg : Code) := exec_ofImmReg8 reg imm s
  exact ⟨hrow 0, hrow 1, hrow 2, hrow 3, hrow 4, hrow 5, hrow 6, hrow 7⟩

/-- Settles O22: B8 to BF are the word rows of the register codes 0 to 7. -/
theorem wordImmediatesToRegistersComplete : Obligations.WordImmediatesToRegistersComplete := by
  intro s imm
  have hrow (reg : Code) := exec_ofImmReg16 reg imm s
  exact ⟨hrow 0, hrow 1, hrow 2, hrow 3, hrow 4, hrow 5, hrow 6, hrow 7⟩

end Sys2Proof.Machine
end

section
/-! What the rows of shape IMM_MEM do, every addressing form at once, and the obligations of 45_mov_imm_mem.md, settled. -/

namespace Sys2Proof.Machine

open Sys2Proof

theorem format_ofFormat_immMem8 (ign : Code) (form : RmForm) (imm : Byte) :
    (Instr.ofFormat (.immMem8 ign form imm)).format = .immMem8 ign form imm := by
  cases form <;> rfl

theorem format_ofFormat_immMem16 (ign : Code) (form : RmForm) (imm : U16) :
    (Instr.ofFormat (.immMem16 ign form imm)).format = .immMem16 ign form imm := by
  cases form <;> rfl

/-- The seven byte rows of shape IMM_MEM at once: the form gives the operand, the flag and the length, and the ignored
field gives nothing (R113, R114, R54). -/
theorem exec_immMem8 (ign : Code) (imm : Byte) (s : State) (form : RmForm) :
    exec (Instr.ofFormat (.immMem8 ign form imm)) s =
      .next (Claims.afterDecoded s (immMemRecord (form.operand false) (imm8Operand imm)) (3 + form.extra)) := by
  apply exec_eq_afterDecoded <;> rw [format_ofFormat_immMem8] <;> rfl

/-- The seven word rows of shape IMM_MEM at once (R113, R115, R54). -/
theorem exec_immMem16 (ign : Code) (imm : U16) (s : State) (form : RmForm) :
    exec (Instr.ofFormat (.immMem16 ign form imm)) s =
      .next (Claims.afterDecoded s (immMemRecord (form.operand true) (imm16Operand imm)) (4 + form.extra)) := by
  apply exec_eq_afterDecoded <;> rw [format_ofFormat_immMem16] <;> rfl

/-- Settles O23: the rows of shape IMM_MEM with w = 0 (R114). -/
theorem opcodeC6CompletesWithItsRecord : Obligations.OpcodeC6CompletesWithItsRecord := by
  intro s ign rm d8 d16 addr imm
  have hrow := exec_immMem8 ign imm s
  exact ⟨hrow (.baseLow rm), hrow (.baseMid rm), hrow .baseBx, hrow (.direct addr), hrow (.disp8 rm d8),
    hrow (.disp16 rm d16), hrow (.register rm)⟩

/-- Settles O24: the rows of shape IMM_MEM with w = 1 (R115). -/
theorem opcodeC7CompletesWithItsRecord : Obligations.OpcodeC7CompletesWithItsRecord := by
  intro s ign rm d8 d16 addr imm
  have hrow := exec_immMem16 ign imm s
  exact ⟨hrow (.baseLow rm), hrow (.baseMid rm), hrow .baseBx, hrow (.direct addr), hrow (.disp8 rm d8),
    hrow (.disp16 rm d16), hrow (.register rm)⟩

end Sys2Proof.Machine
end

section
/-! What the rows of shapes MEM_ACC and ACC_MEM do, both widths at once, and the obligation of 46_mov_acc.md, settled. -/

namespace Sys2Proof.Machine

open Sys2Proof

/-- The two rows of shape MEM_ACC at once: register code 0 is loaded from the direct address (R118 to R120). -/
theorem exec_memAcc (w : Bool) (addr : U16) (s : State) :
    exec (Instr.ofFormat (.memAcc w addr)) s = .next (Claims.afterDecoded s (memAccRecord w addr) 3) := by
  apply exec_eq_afterDecoded <;> rw [(ofFormat_spec (.memAcc w addr) rfl).1] <;> rfl

/-- The two rows of shape ACC_MEM at once: register code 0 is stored at the direct address (R118, R121, R122). -/
theorem exec_accMem (w : Bool) (addr : U16) (s : State) :
    exec (Instr.ofFormat (.accMem w addr)) s = .next (Claims.afterDecoded s (accMemRecord w addr) 3) := by
  apply exec_eq_afterDecoded <;> rw [(ofFormat_spec (.accMem w addr) rfl).1] <;> rfl

/-- Settles O25: A0 and A1 are the byte and the word row of MEM_ACC, A2 and A3 those of ACC_MEM. -/
theorem accumulatorMovesComplete : Obligations.AccumulatorMovesComplete := by
  intro s addr
  exact ⟨exec_memAcc false addr s, exec_memAcc true addr s, exec_accMem false addr s, exec_accMem true addr s⟩

end Sys2Proof.Machine
end

section
/-! What the Formatter writes for a signed value, and that no line has a newline inside: OUT gains one newline per line
(R130, R133, R134). -/

namespace Sys2Proof.Machine

open Sys2Proof

/-- A pattern below 32768 is written as it is (R88, R130). -/
theorem sdec_signed16_of_lt {v : U16} (hv : v.toNat < 32768) : sdec (signed16 v) = dec v.toNat := by
  rw [signed16_of_lt hv, sdec, if_pos (Int.natCast_nonneg _), Int.toNat_natCast]

/-- A pattern from 32768 on is written with a minus sign and its magnitude (R88, R130). -/
theorem sdec_signed16_of_ge {v : U16} (hv : 32768 ≤ v.toNat) :
    sdec (signed16 v) = ascii "-" ++ dec (65536 - v.toNat) := by
  have hlt := v.isLt
  have hneg : ¬ 0 ≤ -((65536 - v.toNat : Nat) : Int) := by omega
  rw [signed16_of_ge hv, sdec, if_neg hneg, neg_neg, Int.toNat_natCast]

/-- The text of a mnemonic and the space after it (R133). -/
theorem fmtMnemonic_append_space (m : Mnemonic) : fmtMnemonic m ++ ascii " " = ascii "mov " := by
  cases m; decide

theorem newline_ne_digit : ∀ d < 10, newline ≠ digit d := by decide

@[simp] theorem newline_notMem_dec (n : Nat) : newline ∉ dec n := fun h =>
  let ⟨d, hd, heq⟩ := (isNumeral_dec n).exists_eq_digit newline h
  newline_ne_digit d hd heq

@[simp] theorem newline_notMem_sdec (z : Int) : newline ∉ sdec z := by
  have hminus : newline ∉ ascii "-" := by decide
  unfold sdec
  split
  · exact newline_notMem_dec _
  · simp [hminus]

@[simp] theorem newline_notMem_fmtReg (id : Code) (width : Width) : newline ∉ fmtReg id width := by
  have h8 : ∀ id, newline ∉ entry reg8 id := by decide
  have h16 : ∀ id, newline ∉ entry reg16 id := by decide
  cases width with
  | byte => exact h8 id
  | word => exact h16 id

@[simp] theorem newline_notMem_fmtBase : ∀ rm : Code, newline ∉ fmtBase rm := by decide

@[simp] theorem newline_notMem_openBracket : newline ∉ ascii "[" := by decide

@[simp] theorem newline_notMem_closeBracket : newline ∉ ascii "]" := by decide

@[simp] theorem newline_notMem_fmtMem (base : Code) (disp : Option U16) : newline ∉ fmtMem base disp := by
  have hplus : newline ∉ ascii " + " := by decide
  have hminus : newline ∉ ascii " - " := by decide
  cases disp with
  | none => simp [fmtMem]
  | some d =>
    simp only [fmtMem]
    split
    · simp [hplus]
    · simp [hminus]

@[simp] theorem newline_notMem_fmtDirect (addr : U16) : newline ∉ fmtDirect addr := by
  simp [fmtDirect]

@[simp] theorem newline_notMem_qualifier (width : Width) : newline ∉ qualifier width := by
  cases width <;> decide

@[simp] theorem newline_notMem_fmtImm (value : U16) (width : Width) (qualified : Bool) :
    newline ∉ fmtImm value width qualified := by
  cases qualified <;> simp [fmtImm]

@[simp] theorem newline_notMem_fmtOperand (op : Operand) (qualified : Bool) :
    newline ∉ fmtOperand op qualified := by
  cases op with
  | register id width => exact newline_notMem_fmtReg id width
  | memory base disp => exact newline_notMem_fmtMem base disp
  | directAddress addr => exact newline_notMem_fmtDirect addr
  | immediate value width => exact newline_notMem_fmtImm value width qualified

/-- The line of a record is one line (R134, R136). -/
theorem newline_notMem_fmtInstr (r : DecodedInstruction) : newline ∉ fmtInstr r := by
  have hmov : newline ∉ ascii "mov " := by decide
  have hcomma : newline ∉ ascii ", " := by decide
  simp [fmtInstr, fmtMnemonic_append_space, hmov, hcomma]

/-- The newline behind a line is the only one of it. -/
theorem OutLine.count_newline_text (l : OutLine) : l.text.count newline = 1 := by
  cases l with
  | ofRecord record => simp [OutLine.text, List.count_eq_zero.mpr (newline_notMem_fmtInstr record)]
  | ofPlaceholder lead => simp [OutLine.text, List.count_eq_zero.mpr (newline_notMem_placeholderLine lead)]

/-- A text made of lines holds as many newlines as lines. -/
theorem count_newline_lines (ls : List OutLine) : (ls.flatMap OutLine.text).count newline = ls.length := by
  induction ls with
  | nil => rfl
  | cons l ls ih => rw [List.flatMap_cons, List.count_append, l.count_newline_text, ih, List.length_cons, Nat.add_comm]

/-- The lines of one result: one if it is `Decoded`, and one under PLACEHOLDER if it is `Unrecognized` (R67, R136). -/
theorem Result.length_lines (p : Policy) (r : Result) :
    (r.lines p).length =
      (if Claims.isDecoded r then 1 else 0) +
        if p = .placeholder then (if Claims.isUnrecognized r then 1 else 0) else 0 := by
  cases r with
  | decoded record start length => cases p <;> rfl
  | endOfStream start => cases p <;> rfl
  | truncatedInstruction start lead => cases p <;> rfl
  | unrecognized start lead => cases p <;> rfl

theorem length_flatMap_lines (p : Policy) (rs : List Result) :
    (rs.flatMap (Result.lines p)).length =
      rs.countP Claims.isDecoded + if p = .placeholder then rs.countP Claims.isUnrecognized else 0 := by
  induction rs with
  | nil => simp
  | cons r rs ih =>
    rw [List.flatMap_cons, List.length_append, r.length_lines, ih, List.countP_cons, List.countP_cons]
    by_cases hp : p = .placeholder
    · simp only [if_pos hp]; omega
    · simp only [if_neg hp]; omega

/-- A pass appends to OUT the lines of its results, in order (R67). -/
theorem out_run_eq (fuel : Nat) (s : State) :
    (run fuel s).out = s.out ++ ((results fuel s).flatMap (Result.lines s.policy)).flatMap OutLine.text := by
  induction fuel generalizing s with
  | zero => simp [run, results]
  | succ fuel ih =>
    cases hended : s.ended with
    | true => simp [run_of_ended hended, results_of_ended hended]
    | false =>
      obtain ⟨t, h⟩ := step_of_running ((State.ended_eq_false_iff s).mp hended)
      rw [run_succ h, results_succ h, ih]
      obtain ⟨r, off, rfl⟩ := step_eq_conclude h
      simp [State.conclude_out]

end Sys2Proof.Machine
end

section
/-! The obligations of 47_formatter.md, settled. -/

namespace Sys2Proof.Machine

open Sys2Proof

/-- Settles O44: OUT gains the lines of the results, each with one newline. -/
theorem oneLinePerDecodedResult : Obligations.OneLinePerDecodedResult := by
  intro s fuel
  rw [out_run_eq, List.count_append, count_newline_lines, length_flatMap_lines, Nat.add_assoc]

/-- Settles O8, by the sign of the value; the qualifier stands in front of the same numeral. -/
theorem immediatesRenderSignedWithQualifier : Obligations.ImmediatesRenderSignedWithQualifier :=
  ⟨fun _ _ hv => sdec_signed16_of_lt hv, fun _ _ hv => sdec_signed16_of_ge hv, fun _ => rfl, fun _ => rfl⟩

/-- Settles O9: the clauses are those of `fmtOperand`, one per tag, and the mnemonic of a record is always mov. -/
theorem lineIsMnemonicDestinationSource : Obligations.LineIsMnemonicDestinationSource := by
  refine ⟨fun dst src q => ?_, fun _ _ _ => rfl, fun _ _ _ => rfl, fun _ _ => rfl, fun _ _ _ => rfl⟩
  rw [fmtInstr, fmtMnemonic_append_space]

end Sys2Proof.Machine
end

section
/-! The policy is no part of the block (D2): every routine of a decode attempt is the same under every policy. -/

namespace Sys2Proof.Machine

open Sys2Proof

/-- With the policy replaced, `x` yields the same and leaves the same state but for that policy. -/
def IgnoresPolicy {α : Type} (x : Attempt α) : Prop :=
  ∀ (s : State) (p : Policy), x { s with policy := p } = ((x s).1, { (x s).2 with policy := p })

/-- The cursor reads SRC and OFF, and writes OFF alone (R57). -/
theorem nextByte_replace_policy (s : State) (p : Policy) :
    nextByte { s with policy := p } = ((nextByte s).1, { (nextByte s).2 with policy := p }) := by
  cases hread : s.src.read s.off <;> simp [nextByte, hread, State.setOff]

theorem IgnoresPolicy.yields {α : Type} (a : α) : IgnoresPolicy (yields a) := fun _ _ => rfl

theorem IgnoresPolicy.needByte : IgnoresPolicy needByte := by
  intro s p
  rw [Sys2Proof.Machine.needByte, Sys2Proof.Machine.needByte, nextByte_replace_policy]
  obtain ⟨b | _, t⟩ := nextByte s <;> rfl

theorem IgnoresPolicy.andThen {α β : Type} {x : Attempt α} {f : α → Attempt β} (hx : IgnoresPolicy x)
    (hf : ∀ a, IgnoresPolicy (f a)) : IgnoresPolicy (andThen x f) := by
  intro s p
  rw [Sys2Proof.Machine.andThen, Sys2Proof.Machine.andThen, hx]
  obtain ⟨_ | a, t⟩ := x s
  · rfl
  · exact hf a t p

theorem IgnoresPolicy.readU16 : IgnoresPolicy readU16 :=
  needByte.andThen fun _ => needByte.andThen fun _ => yields _

theorem IgnoresPolicy.readDisp8 : IgnoresPolicy readDisp8 := needByte.andThen fun _ => yields _

theorem IgnoresPolicy.readImm : ∀ w : Bool, IgnoresPolicy (readImm w)
  | false => readDisp8
  | true => readU16

theorem IgnoresPolicy.resolveRm (mod : BitVec 2) (rm : Code) (w : Bool) : IgnoresPolicy (resolveRm mod rm w) := by
  unfold Sys2Proof.Machine.resolveRm
  split
  case isTrue hregister => exact yields _
  split
  case isTrue hnoDisp =>
    split
    case isTrue hdirect => exact readU16.andThen fun _ => yields _
    case isFalse => exact yields _
  split
  case isTrue hdisp8 => exact readDisp8.andThen fun _ => yields _
  case isFalse => exact readU16.andThen fun _ => yields _

/-- The routine of every shape is made of reads and arithmetic (R63). -/
theorem IgnoresPolicy.dispatch {lead : Byte} {x : Attempt DecodedInstruction} (h : dispatch lead = some x) :
    IgnoresPolicy x := by
  unfold Sys2Proof.Machine.dispatch at h
  split at h <;> cases h
  · exact needByte.andThen fun _ => (resolveRm _ _ _).andThen fun _ => yields _
  · exact (readImm _).andThen fun _ => yields _
  · exact needByte.andThen fun _ => (resolveRm _ _ _).andThen fun _ => (readImm _).andThen fun _ => yields _
  · exact readU16.andThen fun _ => yields _
  · exact readU16.andThen fun _ => yields _

end Sys2Proof.Machine
end

section
/-! The obligations of 60_exceptions.md, settled. -/

namespace Sys2Proof.Machine

open Sys2Proof

/-- Settles O48, by what `decode_one` does in turn: the leading byte, the dispatch, the routine's reads. -/
theorem policyDoesNotTouchTheBlock : Obligations.PolicyDoesNotTouchTheBlock := by
  intro s p
  rw [decodeOne, decodeOne, nextByte_replace_policy]
  obtain ⟨lead | _, t⟩ := nextByte s
  case endOfStream => rfl
  case byte =>
    cases hd : dispatch lead with
    | none => simp only [hd]; rfl
    | some routine =>
      simp only [hd, IgnoresPolicy.dispatch hd t p]
      obtain ⟨_ | record, u⟩ := routine t <;> rfl

/-- Settles O57: one code for each of the four results, one exit status for each of the four values of FINAL. -/
theorem resultCodesAndExitMapping : Obligations.ResultCodesAndExitMapping :=
  ⟨fun _ _ _ _ => ⟨rfl, rfl, rfl, rfl⟩, fun _ _ => ⟨rfl, rfl, rfl, rfl⟩⟩

end Sys2Proof.Machine
end
